-- ==== Sys2Proof/Word.lean ====
section
/-! DEFINITION. The Bus Word and the line level (00_scope.md R10, R13, R18). -/

namespace Sys2Proof

/-- A Bus Word: an 8-bit unsigned value (00_scope.md R10, R19). -/
abbrev Byte := BitVec 8

/-- The level of a 1-bit line: `true` is high, logic 1, asserted; `false` is low, logic 0 (00_scope.md R18). -/
abbrev Level := Bool

end Sys2Proof
end

