-- ==== Sys2Proof/Config.lean ====
section
/-! DEFINITION. What an implementation fixes (00_scope.md R10, R11, R12; 10_state.md R36) and the free
values the spec leaves to the environment. Every `opaque` constant here has no body: no proof can see its value. -/

namespace Sys2Proof

/-- The two values of the chip-select latch (10_state.md R23). -/
inductive CsState where
  | active
  | inactive
  deriving DecidableEq, Repr, Inhabited

/-- `BUS_IMPL` (00_scope.md R7): which implementation of the four primitives is linked in at build time. -/
inductive BusImpl where
  | bitbang
  | external
  deriving DecidableEq, Repr, Inhabited

/-- The build-time constants of 00_scope.md R11, read-only (10_state.md R36). They are configuration, not behaviour: every
rule of the model takes them from here and none assumes a value. -/
structure Params where
  /-- `W_REGISTER_BIT`, OR-ed into a register write's Command Byte (R84, R87). -/
  wRegisterBit : Byte
  /-- `R_RX_PAYLOAD_OP` (R86, R160). -/
  rRxPayloadOp : Byte
  /-- `W_TX_PAYLOAD_OP` (R86, R161). -/
  wTxPayloadOp : Byte
  /-- `RX_ADDR_P0_REG` (R87, R162). -/
  rxAddrP0Reg : Byte
  /-- `TX_ADDR_REG` (R87, R163). -/
  txAddrReg : Byte
  /-- `READ_ADDR_MASK` (R85, R141). -/
  readAddrMask : Byte
  /-- `SETTLE_CYCLES` (R114): the length of a settle delay; 0 allowed; read by no rule but the duration formula R241. -/
  settleCycles : Nat
  /-- `BUS_IMPL` (R7). -/
  busImpl : BusImpl
  /-- `CS_ACTIVE_LEVEL` (R23): the electrical level that means `active`. -/
  csActiveLevel : Level
  /-- `SIZE_MAX` (R11, D13): `none` is unbounded. A bound limits which requests the host can express, not what the block does. -/
  sizeMax : Option Nat
  deriving DecidableEq, Repr, Inhabited

/-- `WORD_BITS` (R10). -/
def Config.wordBits : Nat := 8

/-- `WRITE_ADDR_MASK` (R10): a register address is masked to 6 bits before a write. -/
def Config.writeAddrMask : Byte := 0x3F#8

/-- `ADDR_LEN` (R10): an address is always exactly 5 words. -/
def Config.addrLen : Nat := 5

/-- The build's `W_REGISTER_BIT`: OPEN (R11, D9). -/
opaque Config.wRegisterBit : Byte
/-- The build's `R_RX_PAYLOAD_OP`: OPEN (R11, D9). -/
opaque Config.rRxPayloadOp : Byte
/-- The build's `W_TX_PAYLOAD_OP`: OPEN (R11, D9). -/
opaque Config.wTxPayloadOp : Byte
/-- The build's `RX_ADDR_P0_REG`: OPEN (R11, D9). -/
opaque Config.rxAddrP0Reg : Byte
/-- The build's `TX_ADDR_REG`: OPEN (R11, D9). -/
opaque Config.txAddrReg : Byte
/-- The build's `READ_ADDR_MASK`: OPEN (R11, D10). -/
opaque Config.readAddrMask : Byte
/-- The build's `SETTLE_CYCLES`: OPEN (R11, D17). -/
opaque Config.settleCycles : Nat
/-- The build's `CS_ACTIVE_LEVEL`: OPEN (R11, D4). -/
opaque Config.csActiveLevel : Level

/-- The constants of the build the machine was made with: every OPEN value is opaque, `BUS_IMPL` is `bitbang` as R11 says of
this spec, `SIZE_MAX` is unbounded (D13). -/
def Config.build : Params where
  wRegisterBit := Config.wRegisterBit
  rRxPayloadOp := Config.rRxPayloadOp
  wTxPayloadOp := Config.wTxPayloadOp
  rxAddrP0Reg := Config.rxAddrP0Reg
  txAddrReg := Config.txAddrReg
  readAddrMask := Config.readAddrMask
  settleCycles := Config.settleCycles
  busImpl := .bitbang
  csActiveLevel := Config.csActiveLevel
  sizeMax := none

/-- The reference configuration `REF` (R12) laid over a build: its seven values, `[from general knowledge, not in source]`, and
nothing else changed. Used only where the opcode table's `WIRE_CMD` patterns, which hold under `REF` alone, are read. -/
def Params.toRef (p : Params) : Params :=
  { p with
    wRegisterBit := 0x20#8
    rRxPayloadOp := 0x61#8
    wTxPayloadOp := 0xA0#8
    rxAddrP0Reg := 0x0A#8
    txAddrReg := 0x10#8
    readAddrMask := 0x1F#8
    csActiveLevel := false }

/-- `K0` (R90): a register write can be told from a read. -/
abbrev Params.K0 (p : Params) : Prop := p.wRegisterBit ≠ 0#8

/-- `K1` (R90): the read mask keeps exactly the address bits that `W_REGISTER_BIT` does not absorb. -/
abbrev Params.K1 (p : Params) : Prop :=
  p.readAddrMask &&& Config.writeAddrMask = Config.writeAddrMask &&& ~~~p.wRegisterBit

/-- `K2` (R90): the two address-register constants fit in 6 bits. -/
abbrev Params.K2 (p : Params) : Prop :=
  p.rxAddrP0Reg &&& ~~~Config.writeAddrMask = 0#8 ∧ p.txAddrReg &&& ~~~Config.writeAddrMask = 0#8

/-- FREE VALUE (20_memory.md R70, D16, D31): the level data-in carries at the n-th sample since launch, the environment's free
choice. Nothing constrains it. -/
opaque Config.misoDraw : Nat → Level

/-- FREE VALUE (00_scope.md R7, 40_bus_primitives.md R115): the clock line after the n-th primitive of an external bus. -/
opaque Config.externalSck : Nat → Level
/-- FREE VALUE (R7, R115): the data-out line after the n-th primitive of an external bus. -/
opaque Config.externalMosi : Nat → Level
/-- FREE VALUE (R7, R115): the chip-select line after the n-th primitive of an external bus. -/
opaque Config.externalCs : Nat → CsState

end Sys2Proof
end

