-- ==== Sys2Proof/Syntax.lean ====
section
/-! DEFINITION. The operation set (30_encoding.md R92, R99) and the opcode table's rows, one constructor each; the host's
request (R91). -/

namespace Sys2Proof

/-- A reference to a Multi-byte Buffer of the host, passed with its capacity (20_memory.md R54): element `i` is the host's byte
at `base + i`, for `i` below `cap`. DESIGN CHOICE (log entry 5). -/
structure BufRef where
  base : Nat
  cap : Nat
  deriving DecidableEq, Repr, Inhabited

/-- One row of spec/opcode_table.json each. An operand `reg`, `value` or `opcode` of an `HREQ` operation is the HOST's unsigned
value, of whatever width its type has: it is cut to 8 bits inside the operation (30_encoding.md R89, D15). `buf` and `size` are
the side operands. A `wire…` constructor is the `WIRE_CMD` row: the framer its `semantics_rule` names, given by the first word it
puts on the wire (R83 to R88; DEDUCED, log entry 9); its `reg` or `opcode` is read off that word. -/
inductive Instr where
  /-- R110 -/
  | select
  /-- R111 -/
  | deselect
  /-- R112 -/
  | sendByte (value : Nat)
  /-- R113; `receive_byte` is another name for it (R100). -/
  | sendZeroReceiveByte
  /-- R140 -/
  | writeRegister (reg value : Nat)
  /-- R141 -/
  | readRegister (reg : Nat)
  /-- R142 -/
  | command (opcode : Nat)
  /-- R160 -/
  | readPayload (buf : BufRef) (size : Nat)
  /-- R161 -/
  | writePayload (buf : BufRef) (size : Nat)
  /-- R162 -/
  | writeAddressRx0 (buf : BufRef)
  /-- R163 -/
  | writeAddressTx (buf : BufRef)
  /-- R164 -/
  | writeRegistersBulk (buf : BufRef) (size : Nat)
  /-- R97 -/
  | reservedC
  /-- R97 -/
  | reservedD
  /-- R97 -/
  | reservedE
  /-- R97 -/
  | reservedF
  /-- R84, R140: Command Byte `(reg & 0x3F) | W_REGISTER_BIT`, followed by 1 data word sent. -/
  | wireWriteRegister (reg : Byte) (value : Nat)
  /-- R85, R141: Command Byte `reg & READ_ADDR_MASK`, followed by 1 word received. -/
  | wireReadRegister (reg : Byte)
  /-- R86, R142: the opcode, only word of the session. -/
  | wireCommand (opcode : Byte)
  /-- R86, R160: `R_RX_PAYLOAD_OP`, followed by `size` words received. -/
  | wireReadPayload (buf : BufRef) (size : Nat)
  /-- R86, R161: `W_TX_PAYLOAD_OP`, followed by `size` words sent. -/
  | wireWritePayload (buf : BufRef) (size : Nat)
  /-- R87, R162: `W_REGISTER_BIT | RX_ADDR_P0_REG`, followed by 5 words sent. -/
  | wireWriteAddressRx0 (buf : BufRef)
  /-- R87, R163: `W_REGISTER_BIT | TX_ADDR_REG`, followed by 5 words sent. -/
  | wireWriteAddressTx (buf : BufRef)
  /-- R82, R164: no Command Byte of the block's own; `size` words sent. -/
  | wireWriteRegistersBulk (buf : BufRef) (size : Nat)
  deriving DecidableEq, Repr, Inhabited

/-- The bits of a request: a 20-bit `HREQ` word (30_encoding.md R91), or the Command Byte a framer forms (R83 to R87), `none` for
the one framer that forms no Command Byte (R82, C2). -/
inductive Code where
  | hreq (w : BitVec 20)
  | wire (first : Option Byte)
  deriving DecidableEq, Repr, Inhabited

/-- A request of the host (R91): its code and its side operands. A side operand an operation does not take is ignored. `value` is
the data word that follows a register write's Command Byte where the request is given by that byte (table row
wire.write_register); an `HREQ` holds it in its own bits. -/
structure Request where
  code : Code
  value : Nat
  buf : BufRef
  size : Nat
  deriving DecidableEq, Repr, Inhabited

end Sys2Proof
end

