-- ==== Sys2Proof/Machine/Operands.lean ====
section
/-! DEFINITION. Operand forms: the cut to 8 bits at the boundary (30_encoding.md R89), the four Command Byte formats (R83 to
R87), buffer elements and the capacity an operation needs (20_memory.md R54, R56). -/

namespace Sys2Proof

/-- A host value cut to its low 8 bits, once, at the boundary of the operation (R89, D15). -/
def cut (v : Nat) : Byte := BitVec.ofNat 8 v

/-- Format `CMD_WREG` (R84): `(reg & 0x3F) | W_REGISTER_BIT`. -/
def cmdWreg (p : Params) (reg : Byte) : Byte := (reg &&& Config.writeAddrMask) ||| p.wRegisterBit

/-- Format `CMD_RREG` (R85): `reg & READ_ADDR_MASK`; no read bit is OR-ed in. -/
def cmdRreg (p : Params) (reg : Byte) : Byte := reg &&& p.readAddrMask

/-- Format `CMD_RAW` (R86): the opcode unchanged. -/
def cmdRaw (opcode : Byte) : Byte := opcode

/-- Format `CMD_WADDR` (R87): `W_REGISTER_BIT | constant`; the constant is not masked (C8). -/
def cmdWaddr (p : Params) (addrReg : Byte) : Byte := p.wRegisterBit ||| addrReg

/-- Whether a word is `CMD_WREG` of some register address: it keeps `W_REGISTER_BIT` and nothing else above bit 5. -/
def isWregImage (p : Params) (w : Byte) : Bool := cmdWreg p w == w

/-- Whether a word is `CMD_RREG` of some register address: the read mask keeps all of it. -/
def isRregImage (p : Params) (w : Byte) : Bool := cmdRreg p w == w

/-- The register address a `CMD_WREG` word shows: its low 6 bits less those `W_REGISTER_BIT` absorbs (R84). -/
def wregAddress (p : Params) (w : Byte) : Byte := w &&& Config.writeAddrMask &&& ~~~p.wRegisterBit

/-- The host's address of element `i` of a buffer (R54): elements count up from 0 by 1 (R73). -/
def BufRef.addr (b : BufRef) (i : Nat) : Nat := b.base + i

/-- The buffer and the number of its elements an operation moves (R56, R61), where it takes one. -/
def Instr.moves : Instr → Option (BufRef × Nat)
  | .select | .deselect | .sendByte _ | .sendZeroReceiveByte => none
  | .writeRegister _ _ | .readRegister _ | .command _ => none
  | .readPayload b n | .writePayload b n | .writeRegistersBulk b n => some (b, n)
  | .writeAddressRx0 b | .writeAddressTx b => some (b, Config.addrLen)
  | .reservedC | .reservedD | .reservedE | .reservedF => none
  | .wireWriteRegister _ _ | .wireReadRegister _ | .wireCommand _ => none
  | .wireReadPayload b n | .wireWritePayload b n | .wireWriteRegistersBulk b n => some (b, n)
  | .wireWriteAddressRx0 b | .wireWriteAddressTx b => some (b, Config.addrLen)

end Sys2Proof
end

