-- ==== Sys2Proof/WellFormed.lean ====
section
/-! DEFINITION. When an instruction is one its own encoding can express. The block itself checks nothing (30_encoding.md R89, R96;
40_bus_primitives.md R127): these checks are premises of the encoding round trip, not of any meaning. -/

namespace Sys2Proof

/-- An operand field of `HREQ` is 8 bits wide (30_encoding.md R91). -/
def fitsByte (v : Nat) : Bool := decide (v < 256)

/-- `size` is a natural number up to `SIZE_MAX` (R89, D13). -/
def fitsSize (p : Params) (n : Nat) : Bool :=
  match p.sizeMax with
  | none => true
  | some m => decide (n ≤ m)

/-- The words under which the four fixed Command Bytes are found before any other format is tried (DESIGN CHOICE, log entry 10). -/
def isFixedCmd (p : Params) (w : Byte) : Bool :=
  w == p.rRxPayloadOp || w == p.wTxPayloadOp || w == cmdWaddr p p.rxAddrP0Reg || w == cmdWaddr p p.txAddrReg

/-- Whether an instruction is one its encoding expresses, under the constants `p`. -/
def Instr.wellFormed (p : Params) : Instr → Bool
  | .select => true
  | .deselect => true
  | .sendByte value => fitsByte value
  | .sendZeroReceiveByte => true
  | .writeRegister reg value => fitsByte reg && fitsByte value
  | .readRegister reg => fitsByte reg
  | .command opcode => fitsByte opcode
  | .readPayload _ size => fitsSize p size
  | .writePayload _ size => fitsSize p size
  | .writeAddressRx0 _ => true
  | .writeAddressTx _ => true
  | .writeRegistersBulk _ size => fitsSize p size
  | .reservedC => true
  | .reservedD => true
  | .reservedE => true
  | .reservedF => true
  | .wireWriteRegister reg value =>
      fitsByte value && (wregAddress p reg == reg) && !isFixedCmd p (cmdWreg p reg)
  | .wireReadRegister reg =>
      isRregImage p reg && !isFixedCmd p reg && !isWregImage p reg
  | .wireCommand opcode =>
      !isFixedCmd p opcode && !isWregImage p opcode && !isRregImage p opcode
  | .wireReadPayload _ size => fitsSize p size
  | .wireWritePayload _ size => fitsSize p size && !(p.wTxPayloadOp == p.rRxPayloadOp)
  | .wireWriteAddressRx0 _ =>
      !(cmdWaddr p p.rxAddrP0Reg == p.rRxPayloadOp) && !(cmdWaddr p p.rxAddrP0Reg == p.wTxPayloadOp)
  | .wireWriteAddressTx _ =>
      !(cmdWaddr p p.txAddrReg == p.rRxPayloadOp) && !(cmdWaddr p p.txAddrReg == p.wTxPayloadOp)
        && !(cmdWaddr p p.txAddrReg == cmdWaddr p p.rxAddrP0Reg)
  | .wireWriteRegistersBulk _ size => fitsSize p size

end Sys2Proof
end

