-- ==== Sys2Proof/Decode.lean ====
section
/-! DEFINITION. From the bits of a request to an instruction and back: `HREQ` (30_encoding.md R91 to R93, R97) and the
Command Byte formats (R83 to R88). -/

namespace Sys2Proof

/-- `HREQ[19:16]`, the operation code (R91). -/
def hreqOp (w : BitVec 20) : Nat := (w.extractLsb' 16 4).toNat

/-- `HREQ[15:8]`, the first operand (R91). -/
def hreqA (w : BitVec 20) : Nat := (w.extractLsb' 8 8).toNat

/-- `HREQ[7:0]`, the second operand (R91). -/
def hreqB (w : BitVec 20) : Nat := (w.extractLsb' 0 8).toNat

/-- Decoding an `HREQ` by `OP` alone (R92, R93); fields an operation does not use are ignored (R91). Of the sixteen values of a
4-bit `OP` the last arm takes 0xF, the only one left. -/
def decodeHreq (w : BitVec 20) (buf : BufRef) (size : Nat) : Instr :=
  match hreqOp w with
  | 0x0 => .select
  | 0x1 => .deselect
  | 0x2 => .sendByte (hreqA w)
  | 0x3 => .sendZeroReceiveByte
  | 0x4 => .writeRegister (hreqA w) (hreqB w)
  | 0x5 => .readRegister (hreqA w)
  | 0x6 => .command (hreqA w)
  | 0x7 => .readPayload buf size
  | 0x8 => .writePayload buf size
  | 0x9 => .writeAddressRx0 buf
  | 0xA => .writeAddressTx buf
  | 0xB => .writeRegistersBulk buf size
  | 0xC => .reservedC
  | 0xD => .reservedD
  | 0xE => .reservedE
  | _ => .reservedF

/-- Reading a Command Byte under the constants `p`. The formats overlap (20_memory.md R52: the block does not check that two uses of
the command space are disjoint); DESIGN CHOICE (log entry 10): the fixed Command Bytes first, then a register write, then a register
read, then a raw opcode. -/
def decodeWire (p : Params) (w : Byte) (value : Nat) (buf : BufRef) (size : Nat) : Instr :=
  if w = p.rRxPayloadOp then .wireReadPayload buf size
  else if w = p.wTxPayloadOp then .wireWritePayload buf size
  else if w = cmdWaddr p p.rxAddrP0Reg then .wireWriteAddressRx0 buf
  else if w = cmdWaddr p p.txAddrReg then .wireWriteAddressTx buf
  else if isWregImage p w then .wireWriteRegister (wregAddress p w) value
  else if isRregImage p w then .wireReadRegister w
  else .wireCommand w

/-- The instruction a request asks for. Total: every request decodes. -/
def decode (p : Params) (r : Request) : Instr :=
  match r.code with
  | .hreq w => decodeHreq w r.buf r.size
  | .wire none => .wireWriteRegistersBulk r.buf r.size
  | .wire (some w) => decodeWire p w r.value r.buf r.size

/-- Why bytes are no code of a request. -/
inductive CodeError where
  /-- Neither 0 bytes (no Command Byte), 1 (a Command Byte) nor 3 (an `HREQ`). Safe: nothing is decoded. -/
  | length
  /-- A bit above bit 19 of an `HREQ` is set; `HREQ` is 20 bits (R91). Safe: nothing is decoded. -/
  | wideHreq
  deriving DecidableEq, Repr

/-- The code laid out in bytes, least significant byte first (DESIGN CHOICE, log entry 8). -/
def Code.ofBytes : List Byte → Except CodeError Code
  | [] => .ok (.wire none)
  | [b] => .ok (.wire (some b))
  | [b0, b1, b2] =>
      if b2.toNat < 16 then .ok (.hreq (BitVec.ofNat 20 (b2.toNat * 65536 + b1.toNat * 256 + b0.toNat)))
      else .error .wideHreq
  | _ => .error .length

/-- `HREQ` put together from its fields (R91). -/
def hreqWord (op a b : Nat) : BitVec 20 := BitVec.ofNat 4 op ++ BitVec.ofNat 8 a ++ BitVec.ofNat 8 b

/-- A request with no side operands. -/
def Request.plain (c : Code) : Request := ⟨c, 0, ⟨0, 0⟩, 0⟩

/-- Encoding: the request that asks for an instruction; unused fields and side operands are 0. -/
def encode (p : Params) : Instr → Request
  | .select => .plain (.hreq (hreqWord 0x0 0 0))
  | .deselect => .plain (.hreq (hreqWord 0x1 0 0))
  | .sendByte value => .plain (.hreq (hreqWord 0x2 value 0))
  | .sendZeroReceiveByte => .plain (.hreq (hreqWord 0x3 0 0))
  | .writeRegister reg value => .plain (.hreq (hreqWord 0x4 reg value))
  | .readRegister reg => .plain (.hreq (hreqWord 0x5 reg 0))
  | .command opcode => .plain (.hreq (hreqWord 0x6 opcode 0))
  | .readPayload buf size => ⟨.hreq (hreqWord 0x7 0 0), 0, buf, size⟩
  | .writePayload buf size => ⟨.hreq (hreqWord 0x8 0 0), 0, buf, size⟩
  | .writeAddressRx0 buf => ⟨.hreq (hreqWord 0x9 0 0), 0, buf, 0⟩
  | .writeAddressTx buf => ⟨.hreq (hreqWord 0xA 0 0), 0, buf, 0⟩
  | .writeRegistersBulk buf size => ⟨.hreq (hreqWord 0xB 0 0), 0, buf, size⟩
  | .reservedC => .plain (.hreq (hreqWord 0xC 0 0))
  | .reservedD => .plain (.hreq (hreqWord 0xD 0 0))
  | .reservedE => .plain (.hreq (hreqWord 0xE 0 0))
  | .reservedF => .plain (.hreq (hreqWord 0xF 0 0))
  | .wireWriteRegister reg value => ⟨.wire (some (cmdWreg p reg)), value, ⟨0, 0⟩, 0⟩
  | .wireReadRegister reg => .plain (.wire (some (cmdRreg p reg)))
  | .wireCommand opcode => .plain (.wire (some (cmdRaw opcode)))
  | .wireReadPayload buf size => ⟨.wire (some (cmdRaw p.rRxPayloadOp)), 0, buf, size⟩
  | .wireWritePayload buf size => ⟨.wire (some (cmdRaw p.wTxPayloadOp)), 0, buf, size⟩
  | .wireWriteAddressRx0 buf => ⟨.wire (some (cmdWaddr p p.rxAddrP0Reg)), 0, buf, 0⟩
  | .wireWriteAddressTx buf => ⟨.wire (some (cmdWaddr p p.txAddrReg)), 0, buf, 0⟩
  | .wireWriteRegistersBulk buf size => ⟨.wire none, 0, buf, size⟩

/-- The `n` bytes of a number, least significant first. -/
def bytesOf : Nat → Nat → List Byte
  | 0, _ => []
  | n + 1, w => BitVec.ofNat 8 w :: bytesOf n (w / 256)

/-- The code a table word is: its bits in whole bytes, laid out as `Code.ofBytes` reads them. -/
def tableCode (nbits w : Nat) : Except CodeError Code :=
  Code.ofBytes (bytesOf ((nbits + 7) / 8) w)

/-- A request made of a table word: the table gives the side operands no bits, so they are zeros, with a buffer that has room for
an address (DESIGN CHOICE, log entry 8). -/
def Request.ofTable (c : Code) : Request := ⟨c, 0, ⟨0, Config.addrLen⟩, 0⟩

/-- The constants under which a table word is read: a `WIRE_CMD` row's bits are its pattern under `REF` only (opcode_table.json,
`encoding_is`), an `HREQ` row's bits depend on no constant. -/
def Code.tableParams (p : Params) : Code → Params
  | .hreq _ => p
  | .wire _ => p.toRef

/-- The instruction the decoder reads from a table word. -/
def decodeTableWord (nbits w : Nat) : Option Instr :=
  match tableCode nbits w with
  | .ok c => some (decode (c.tableParams Config.build) (Request.ofTable c))
  | .error _ => none

end Sys2Proof
end

