-- ==== Sys2Proof/Machine/State.lean ====
section
/-! DEFINITION. Everything the spec gives the machine (10_state.md), as plain data, and the machine right after reset (R45, R220). -/

namespace Sys2Proof.Machine

/-- The three output-line latches, the only state of the block that survives an operation (R20, R21, R22, R23). -/
structure Latches where
  /-- `L.SCK` (R21): the level last driven on the clock line. -/
  sck : Level
  /-- `L.MOSI` (R22): the level last driven on the data-out line. -/
  mosi : Level
  /-- `L.CS` (R23): the state last driven on the chip-select line. -/
  cs : CsState
  deriving DecidableEq, Repr, Inhabited

/-- A line action, the unit of the line-level trace (R40). -/
inductive Action where
  /-- `drive(SCK, v)`: `c0`, `c1` -/
  | sck (v : Level)
  /-- `drive(MOSI, v)`: `d0`, `d1` -/
  | mosi (v : Level)
  /-- `drive(CS, c)`: `S`, `D` -/
  | cs (c : CsState)
  /-- `settle()`: `s` -/
  | settle
  /-- `sample()` that returned `b`: `m0`, `m1` -/
  | sample (b : Level)
  deriving DecidableEq, Repr, Inhabited

/-- A primitive call, the unit of the word-level trace (R41). -/
inductive Event where
  | sel
  | desel
  | tx (b : Byte)
  | rx (b : Byte)
  deriving DecidableEq, Repr, Inhabited

/-- `SEQ`, the sequencer position (R33): no operation in progress, or the operation in progress and how many actions of its action
list it has performed. The word and the bit it stands in are `CNT` and `IDX`. -/
inductive Seq where
  | idle
  | busy (op : Instr) (done : Nat)
  deriving DecidableEq, Repr, Inhabited

/-- The host's bytes, its buffers among them (20_memory.md R54): addresses strictly rising, no entry equal to 0x00, which is what
an unlisted address reads as (DESIGN CHOICE, log entries 5 and 6). -/
abbrev Memory := List Host.Cell

/-- Why a step stops with a fault. The block raises no exception and has no error condition (60_exceptions.md R190, R196), so there
is none: no constructor, nobody raises one. -/
inductive Fault where
  deriving DecidableEq, Repr

/-- The spec's `refuse(reason)` (10_state.md R44), a model-level outcome that changes no state (60_exceptions.md R196), and the
host's marker for an instruction without a meaning. -/
inductive Refusal where
  /-- Raised by an arm of `exec` whose instruction has no meaning yet; no arm does. Safe: nothing is claimed of it. -/
  | notModelled (mnemonic : String)
  /-- `refuse(reserved_op)`: raised by the four reserved operation codes (30_encoding.md R97). Safe: a refusal makes every claim
  about the request unprovable. -/
  | reservedOp
  /-- `refuse(capacity)`: raised by an operation whose buffer has fewer elements than it moves (20_memory.md R56), undefined
  behaviour of the hardware. Safe: a refusal makes every claim about the request unprovable. -/
  | capacity
  deriving DecidableEq, Repr

/-- The state of the machine. -/
structure State where
  /-- `L.SCK`, `L.MOSI`, `L.CS` (R21 to R23). -/
  latches : Latches
  /-- `SEQ` (R33). -/
  seq : Seq
  /-- `TXV` (R31); `none` where it does not exist (R30). -/
  txv : Option Byte
  /-- `ACC` (R32); `none` where it does not exist. -/
  acc : Option Byte
  /-- `IDX` (R34); `none` where it does not exist. -/
  idx : Option (BitVec 3)
  /-- `CNT` (R34); `none` where it does not exist. -/
  cnt : Option Nat
  /-- `CMD` (R31); `none` where it does not exist. -/
  cmd : Option Byte
  /-- `LT` (R40), in order of time. -/
  lt : List Action
  /-- `WT` (R41), in order of time. -/
  wt : List Event
  /-- The levels the environment will present at the next samples, in order (20_memory.md R70); when they run out a sample is the
  free value `Config.misoDraw`. The environment's, not the block's (R25). DESIGN CHOICE (log entry 4). -/
  miso : List Level
  /-- The MODEL's own count of the samples taken: it names the free value (log entry 4). -/
  draws : Nat
  /-- The host's buffers (20_memory.md R54). -/
  mem : Memory
  /-- The requests the host will present, in order (R26; 30_encoding.md R91). DESIGN CHOICE (log entry 7). -/
  requests : List Request
  /-- The result port (R26, R43): the word the last operation returned, `none` where it returned none. -/
  result : Option Byte
  /-- The build-time constants (R36), read-only. -/
  params : Params
  deriving DecidableEq, Repr, Inhabited

/-- The machine right after reset (R45, R220): `SEQ` idle, no operation-local register, both traces empty, the constants at their
build-time values, no request. DESIGN CHOICE (log entry 3): the three latches, which the spec leaves unspecified after reset, hold
the values its launch premise `Idle` asks for. -/
def State.reset : State where
  latches := ⟨false, false, .inactive⟩
  seq := .idle
  txv := none
  acc := none
  idx := none
  cnt := none
  cmd := none
  lt := []
  wt := []
  miso := []
  draws := 0
  mem := []
  requests := []
  result := none
  params := Config.build

end Sys2Proof.Machine
end

