-- ==== Sys2Proof/Machine/Ops.lean ====
section
/-! DEFINITION. The named operations over latches, traces, registers, draws and buffers, and the four bus primitives
(40_bus_primitives.md). There is no exception to take and none to return from (60_exceptions.md R190, R196, R197). -/

namespace Sys2Proof.Machine

/-! ### The host's bytes (20_memory.md R54) -/

/-- `MemRead`: the byte at an address; an unlisted address reads 0x00 (DESIGN CHOICE, log entry 6). -/
def Memory.read : Memory → Nat → Byte
  | [], _ => 0#8
  | (k, w) :: m, a => if k = a then w else Memory.read m a

/-- `MemWrite`: the byte at an address replaced, in canonical form. -/
def Memory.write : Memory → Nat → Byte → Memory
  | [], a, v => if v = 0#8 then [] else [(a, v)]
  | (k, w) :: m, a, v =>
      if a < k then (if v = 0#8 then (k, w) :: m else (a, v) :: (k, w) :: m)
      else if a = k then (if v = 0#8 then m else (a, v) :: m)
      else (k, w) :: Memory.write m a v

/-- Every address of the list is above `lo`, addresses rise strictly, no byte is 0x00. -/
def Memory.wfAbove : Option Nat → Memory → Bool
  | _, [] => true
  | lo, (k, w) :: m => (match lo with | none => true | some l => decide (l < k)) && decide (w ≠ 0#8) && Memory.wfAbove (some k) m

/-- The canonical form of a memory. -/
def Memory.wf (m : Memory) : Bool := Memory.wfAbove none m

/-- Element `i` of a buffer. -/
def State.bufRead (s : State) (b : BufRef) (i : Nat) : Byte := s.mem.read (b.addr i)

/-- Element `i` of a buffer replaced. -/
def State.bufWrite (s : State) (b : BufRef) (i : Nat) (v : Byte) : State := { s with mem := s.mem.write (b.addr i) v }

/-! ### Lines and traces -/

/-- What one action does to the latches (10_state.md R24): a drive sets its own latch and no other; `settle` and `sample` set
none (40_bus_primitives.md R114; 10_state.md R25). -/
def Latches.apply (l : Latches) : Action → Latches
  | .sck v => { l with sck := v }
  | .mosi v => { l with mosi := v }
  | .cs c => { l with cs := c }
  | .settle => l
  | .sample _ => l

/-- `SEQ` advances by one action (10_state.md R33). -/
def Seq.advance : Seq → Seq
  | .idle => .idle
  | .busy op n => .busy op (n + 1)

/-- Performing one action (R24, R40): the latch, one entry of `LT`, one place of `SEQ`. Total: it cannot fail. -/
def State.act (s : State) (a : Action) : State :=
  { s with latches := s.latches.apply a, lt := s.lt ++ [a], seq := s.seq.advance }

/-- `drive(SCK, v)` (00_scope.md R15). -/
def driveSck (v : Level) (s : State) : State := s.act (.sck v)

/-- `drive(MOSI, v)`. -/
def driveMosi (v : Level) (s : State) : State := s.act (.mosi v)

/-- `drive(CS, c)`. -/
def driveCs (c : CsState) (s : State) : State := s.act (.cs c)

/-- `settle()` (40_bus_primitives.md R114): an entry of `LT` and no other effect. -/
def settle (s : State) : State := s.act .settle

/-- The draw at the `k`-th sample from now (20_memory.md R70). -/
def State.drawAt (s : State) (k : Nat) : Level := (s.miso[k]?).getD (Config.misoDraw (s.draws + k))

/-- The environment's next `n` draws are used up. -/
def State.takeDraws (s : State) (n : Nat) : State := { s with miso := s.miso.drop n, draws := s.draws + n }

/-- `sample()` (R70): one draw, read once, recorded. -/
def sample (s : State) : Level × State :=
  (s.drawAt 0, (s.takeDraws 1).act (.sample (s.drawAt 0)))

/-- One primitive call is recorded in `WT` (10_state.md R41). -/
def State.note (s : State) (e : Event) : State := { s with wt := s.wt ++ [e] }

/-! ### Operation-local registers (10_state.md R30). Each is written before it is read, so the value read where a register does
not exist is never used. -/

/-- `TXV` read. -/
def State.readTxv (s : State) : Byte := s.txv.getD 0#8
/-- `ACC` read. -/
def State.readAcc (s : State) : Byte := s.acc.getD 0#8
/-- `IDX` read. -/
def State.readIdx (s : State) : BitVec 3 := s.idx.getD 0#3
/-- `CNT` read. -/
def State.readCnt (s : State) : Nat := s.cnt.getD 0
/-- `CMD` read. -/
def State.readCmd (s : State) : Byte := s.cmd.getD 0#8

/-- `TXV <- v`. -/
def State.setTxv (s : State) (v : Byte) : State := { s with txv := some v }
/-- `ACC <- v`. -/
def State.setAcc (s : State) (v : Byte) : State := { s with acc := some v }
/-- `IDX <- k`, the index of the bit loop, 7 down to 0. -/
def State.setIdx (s : State) (k : Nat) : State := { s with idx := some (BitVec.ofNat 3 k) }
/-- `CNT <- i`. -/
def State.setCnt (s : State) (i : Nat) : State := { s with cnt := some i }
/-- `CMD <- v`. -/
def State.setCmd (s : State) (v : Byte) : State := { s with cmd := some v }

/-- send_byte ends: `TXV` and `IDX` no longer exist. -/
def State.endSend (s : State) : State := { s with txv := none, idx := none }
/-- send_zero_receive_byte ends: `ACC` and `IDX` no longer exist. -/
def State.endReceive (s : State) : State := { s with acc := none, idx := none }

/-- `(TXV >> IDX) & 1` as a level (R112, R123). -/
def bitAt (v : Byte) (i : BitVec 3) : Level := ((v >>> i.toNat) &&& 1#8) == 1#8

/-! ### The bit loops of the bit-bang bus (40_bus_primitives.md R112, R113) -/

/-- One outgoing bit (30_encoding.md R80): clock low, data, clock high, settle. -/
def sendBit (k : Nat) (s : State) : State :=
  let s := s.setIdx k
  let s := driveSck false s
  let s := driveMosi (bitAt s.readTxv s.readIdx) s
  let s := driveSck true s
  settle s

/-- `for IDX = n-1 downto 0`: outgoing bits. -/
def sendBits : Nat → State → State
  | 0, s => s
  | k + 1, s => sendBits k (sendBit k s)

/-- One incoming bit (R80): shift, clock high, settle, sample, clock low, settle. -/
def receiveBit (k : Nat) (s : State) : State :=
  let s := s.setIdx k
  let s := s.setAcc (s.readAcc <<< 1)
  let s := driveSck true s
  let s := settle s
  let d := sample s
  let s := d.2.setAcc (if d.1 then d.2.readAcc ||| 1#8 else d.2.readAcc)
  let s := driveSck false s
  settle s

/-- `for IDX = n-1 downto 0`: incoming bits. -/
def receiveBits : Nat → State → State
  | 0, s => s
  | k + 1, s => receiveBits k (receiveBit k s)

/-- send_byte on the bit-bang bus (R112): 34 actions, the tail clock first and then data-out (D6). -/
def sendBitbang (value : Byte) (s : State) : State :=
  let s := s.setTxv value
  let s := sendBits Config.wordBits s
  let s := driveSck false s
  let s := driveMosi false s
  s.endSend

/-- send_zero_receive_byte on the bit-bang bus (R113): 41 actions; data-out is driven low once, at the head (D7). -/
def receiveBitbang (s : State) : Byte × State :=
  let s := s.setAcc 0#8
  let s := driveMosi false s
  let s := receiveBits Config.wordBits s
  (s.readAcc, s.endReceive)

/-! ### An external bus (00_scope.md R7, 40_bus_primitives.md R115) -/

/-- What an external bus leaves on the lines is not specified: each latch takes a free value, `LT` is not defined for it (10_state.md
R40) and gains nothing (DESIGN CHOICE, log entry 11). -/
def State.externalLines (s : State) : State :=
  { s with latches := ⟨Config.externalSck s.wt.length, Config.externalMosi s.wt.length, Config.externalCs s.wt.length⟩ }

/-- A word of eight levels, first in bit 7 (20_memory.md R57). -/
def wordOfBits (f : Nat → Level) : Byte :=
  (List.range Config.wordBits).foldl (fun acc k => (acc <<< 1) ||| (if f k then 1#8 else 0#8)) 0#8

/-- The word the chip presents at the `i`-th word from now: its draws `8·i` to `8·i + 7`, first in bit 7. -/
def State.drawnWord (s : State) (i : Nat) : Byte := wordOfBits (fun k => s.drawAt (Config.wordBits * i + k))

/-! ### The four primitives, for either bus -/

/-- select (R110). -/
def select (s : State) : State :=
  match s.params.busImpl with
  | .bitbang => (driveCs .active s).note .sel
  | .external => s.externalLines.note .sel

/-- deselect (R111). -/
def deselect (s : State) : State :=
  match s.params.busImpl with
  | .bitbang => (driveCs .inactive s).note .desel
  | .external => s.externalLines.note .desel

/-- send_byte (R112, R115). -/
def sendByte (value : Byte) (s : State) : State :=
  match s.params.busImpl with
  | .bitbang => (sendBitbang value s).note (.tx value)
  | .external => s.externalLines.note (.tx value)

/-- send_zero_receive_byte (R113, R115): the received word and the state after. -/
def receiveByte (s : State) : Byte × State :=
  match s.params.busImpl with
  | .bitbang => ((receiveBitbang s).1, (receiveBitbang s).2.note (.rx (receiveBitbang s).1))
  | .external => (s.drawnWord 0, (s.takeDraws Config.wordBits).externalLines.note (.rx (s.drawnWord 0)))

/-! ### Word loops (42_payload_and_address.md) -/

/-- `for CNT = i to i+n-1: send_byte(MemRead(buffer, CNT, 1))`: an element is read when its send_byte begins (20_memory.md R69). -/
def sendWords (b : BufRef) : Nat → Nat → State → State
  | _, 0, s => s
  | i, n + 1, s =>
      let s := s.setCnt i
      sendWords b (i + 1) n (sendByte (s.bufRead b s.readCnt) s)

/-- `for CNT = i to i+n-1: MemWrite(buffer, CNT, 1, send_zero_receive_byte())`: an element is written when its word has been
received (R69). -/
def receiveWords (b : BufRef) : Nat → Nat → State → State
  | _, 0, s => s
  | i, n + 1, s =>
      let s := s.setCnt i
      let r := receiveByte s
      receiveWords b (i + 1) n (r.2.bufWrite b r.2.readCnt r.1)

/-! ### Beginning and end of an operation -/

/-- An operation begins: `SEQ` stands at its first action (R33). -/
def start (op : Instr) (s : State) : State := { s with seq := .busy op 0 }

/-- An operation ends: `SEQ` is idle, no operation-local register exists (R20, R33), and the result, if there is one, is handed to
the host (R43). -/
def finish (r : Option Byte) (s : State) : State :=
  { s with seq := .idle, txv := none, acc := none, idx := none, cnt := none, cmd := none, result := r }

end Sys2Proof.Machine
end

