-- ==== Sys2Proof/Machine/Framers.lean ====
section
/-! DEFINITION. The protocol layer's transactions as sequences of the four primitives and nothing else (00_scope.md R6;
30_encoding.md R82, R88, R101). An operation and the opcode table's row for its first wire word share one of these. -/

namespace Sys2Proof.Machine

/-- `CMD` is composed before select (41_register_access.md R140) and read once, as the operand of the first send_byte. -/
def sendCmd (s : State) : State := sendByte s.readCmd s

/-- `> CMD, > value` (R140). -/
def frameWrite (op : Instr) (cmd value : Byte) (s : State) : State :=
  let s := start op s
  let s := s.setCmd cmd
  let s := select s
  let s := sendCmd s
  let s := sendByte value s
  let s := deselect s
  finish none s

/-- `> CMD, < r`, returning `r` (R141). -/
def frameRead (op : Instr) (cmd : Byte) (s : State) : State :=
  let s := start op s
  let s := s.setCmd cmd
  let s := select s
  let s := sendCmd s
  let r := receiveByte s
  let s := deselect r.2
  finish (some r.1) s

/-- `> opcode` (R142). -/
def frameCommand (op : Instr) (opcode : Byte) (s : State) : State :=
  let s := start op s
  let s := select s
  let s := sendByte opcode s
  let s := deselect s
  finish none s

/-- `> opcode`, then `size` times `< r_i`, stored in order (R160). -/
def frameReceive (op : Instr) (opcode : Byte) (b : BufRef) (size : Nat) (s : State) : State :=
  let s := start op s
  let s := select s
  let s := sendByte opcode s
  let s := receiveWords b 0 size s
  let s := deselect s
  finish none s

/-- `> opcode`, then `size` times `> buffer[i]` (R161). -/
def frameSend (op : Instr) (opcode : Byte) (b : BufRef) (size : Nat) (s : State) : State :=
  let s := start op s
  let s := select s
  let s := sendByte opcode s
  let s := sendWords b 0 size s
  let s := deselect s
  finish none s

/-- `> CMD`, then `ADDR_LEN` times `> buffer[i]` (R162, R163). -/
def frameAddress (op : Instr) (cmd : Byte) (b : BufRef) (s : State) : State :=
  let s := start op s
  let s := s.setCmd cmd
  let s := select s
  let s := sendCmd s
  let s := sendWords b 0 Config.addrLen s
  let s := deselect s
  finish none s

/-- `size` times `> buffer[i]`, with no Command Byte of the block's own (R164). -/
def frameBulk (op : Instr) (b : BufRef) (size : Nat) (s : State) : State :=
  let s := start op s
  let s := select s
  let s := sendWords b 0 size s
  let s := deselect s
  finish none s

/-- The capacity check a model makes before an operation begins (20_memory.md R56; 60_exceptions.md R195, R196): a buffer too
small for the words moved is refused with nothing done. -/
def withCapacity (b : BufRef) (n : Nat) (run : State → State) (s : State) : Host.Outcome State Fault Refusal :=
  if b.cap < n then .refused .capacity else .next (run s)

end Sys2Proof.Machine
end

