-- ==== Sys2Proof/Machine/Payload.lean ====
section
/-! DEFINITION. Payload, address and bulk framers (42_payload_and_address.md R160 to R164). -/

namespace Sys2Proof.Machine

/-- read_payload(buffer, size) (R160). -/
def execReadPayload (b : BufRef) (size : Nat) (s : State) : Host.Outcome State Fault Refusal :=
  withCapacity b size (frameReceive (.readPayload b size) (cmdRaw s.params.rRxPayloadOp) b size) s

/-- write_payload(buffer, size) (R161). -/
def execWritePayload (b : BufRef) (size : Nat) (s : State) : Host.Outcome State Fault Refusal :=
  withCapacity b size (frameSend (.writePayload b size) (cmdRaw s.params.wTxPayloadOp) b size) s

/-- write_address_rx0(buffer) (R162): `CMD <- W_REGISTER_BIT | RX_ADDR_P0_REG`. -/
def execWriteAddressRx0 (b : BufRef) (s : State) : Host.Outcome State Fault Refusal :=
  withCapacity b Config.addrLen (frameAddress (.writeAddressRx0 b) (cmdWaddr s.params s.params.rxAddrP0Reg) b) s

/-- write_address_tx(buffer) (R163): `CMD <- W_REGISTER_BIT | TX_ADDR_REG`. -/
def execWriteAddressTx (b : BufRef) (s : State) : Host.Outcome State Fault Refusal :=
  withCapacity b Config.addrLen (frameAddress (.writeAddressTx b) (cmdWaddr s.params s.params.txAddrReg) b) s

/-- write_registers_bulk(buffer, size) (R164). -/
def execWriteRegistersBulk (b : BufRef) (size : Nat) (s : State) : Host.Outcome State Fault Refusal :=
  withCapacity b size (frameBulk (.writeRegistersBulk b size) b size) s

end Sys2Proof.Machine
end

