-- ==== Sys2Proof/Machine/Primitives.lean ====
section
/-! DEFINITION. The four bus primitives as operations of the host (40_bus_primitives.md R110 to R113). -/

namespace Sys2Proof.Machine

/-- select (R110). -/
def execSelect (s : State) : Host.Outcome State Fault Refusal :=
  .next (finish none (select (start .select s)))

/-- deselect (R111). -/
def execDeselect (s : State) : Host.Outcome State Fault Refusal :=
  .next (finish none (deselect (start .deselect s)))

/-- send_byte(value) (R112): `TXV` takes `value[7:0]`. -/
def execSendByte (value : Nat) (s : State) : Host.Outcome State Fault Refusal :=
  .next (finish none (sendByte (cut value) (start (.sendByte value) s)))

/-- send_zero_receive_byte() (R113). -/
def execSendZeroReceiveByte (s : State) : Host.Outcome State Fault Refusal :=
  let r := receiveByte (start .sendZeroReceiveByte s)
  .next (finish (some r.1) r.2)

end Sys2Proof.Machine
end

