-- ==== Sys2Proof/Machine/Registers.lean ====
section
/-! DEFINITION. Register access framers (41_register_access.md R140 to R142). -/

namespace Sys2Proof.Machine

/-- write_register(reg, value) (R140): `CMD <- (reg[7:0] & 0x3F) | W_REGISTER_BIT`. -/
def execWriteRegister (reg value : Nat) (s : State) : Host.Outcome State Fault Refusal :=
  .next (frameWrite (.writeRegister reg value) (cmdWreg s.params (cut reg)) (cut value) s)

/-- read_register(reg) (R141): `CMD <- reg[7:0] & READ_ADDR_MASK`. -/
def execReadRegister (reg : Nat) (s : State) : Host.Outcome State Fault Refusal :=
  .next (frameRead (.readRegister reg) (cmdRreg s.params (cut reg)) s)

/-- command(opcode) (R142): the opcode is neither masked nor checked. -/
def execCommand (opcode : Nat) (s : State) : Host.Outcome State Fault Refusal :=
  .next (frameCommand (.command opcode) (cmdRaw (cut opcode)) s)

end Sys2Proof.Machine
end

