-- ==== Sys2Proof/Machine/Reserved.lean ====
section
/-! DEFINITION. The reserved operation codes 0xC to 0xF (30_encoding.md R97): `refuse(reserved_op)`, no action, no latch change. -/

namespace Sys2Proof.Machine

/-- `OP` = 0xC (R97). -/
def execReservedC (_s : State) : Host.Outcome State Fault Refusal := .refused .reservedOp

/-- `OP` = 0xD (R97). -/
def execReservedD (_s : State) : Host.Outcome State Fault Refusal := .refused .reservedOp

/-- `OP` = 0xE (R97). -/
def execReservedE (_s : State) : Host.Outcome State Fault Refusal := .refused .reservedOp

/-- `OP` = 0xF (R97). -/
def execReservedF (_s : State) : Host.Outcome State Fault Refusal := .refused .reservedOp

end Sys2Proof.Machine
end

