-- ==== Sys2Proof/Machine/Wire.lean ====
section
/-! DEFINITION. The opcode table's `WIRE_CMD` rows: the transaction whose first word has the row's Command Byte format (30_encoding.md
R82 to R88, R93), with the meaning the row's `semantics_rule` gives it (DEDUCED, log entry 9). -/

namespace Sys2Proof.Machine

/-- wire.write_register (R84, R140). -/
def execWireWriteRegister (reg : Byte) (value : Nat) (s : State) : Host.Outcome State Fault Refusal :=
  .next (frameWrite (.wireWriteRegister reg value) (cmdWreg s.params reg) (cut value) s)

/-- wire.read_register (R85, R141). -/
def execWireReadRegister (reg : Byte) (s : State) : Host.Outcome State Fault Refusal :=
  .next (frameRead (.wireReadRegister reg) (cmdRreg s.params reg) s)

/-- wire.command (R86, R142). -/
def execWireCommand (opcode : Byte) (s : State) : Host.Outcome State Fault Refusal :=
  .next (frameCommand (.wireCommand opcode) (cmdRaw opcode) s)

/-- wire.read_payload (R86, R160). -/
def execWireReadPayload (b : BufRef) (size : Nat) (s : State) : Host.Outcome State Fault Refusal :=
  withCapacity b size (frameReceive (.wireReadPayload b size) (cmdRaw s.params.rRxPayloadOp) b size) s

/-- wire.write_payload (R86, R161). -/
def execWireWritePayload (b : BufRef) (size : Nat) (s : State) : Host.Outcome State Fault Refusal :=
  withCapacity b size (frameSend (.wireWritePayload b size) (cmdRaw s.params.wTxPayloadOp) b size) s

/-- wire.write_address_rx0 (R87, R162). -/
def execWireWriteAddressRx0 (b : BufRef) (s : State) : Host.Outcome State Fault Refusal :=
  withCapacity b Config.addrLen (frameAddress (.wireWriteAddressRx0 b) (cmdWaddr s.params s.params.rxAddrP0Reg) b) s

/-- wire.write_address_tx (R87, R163). -/
def execWireWriteAddressTx (b : BufRef) (s : State) : Host.Outcome State Fault Refusal :=
  withCapacity b Config.addrLen (frameAddress (.wireWriteAddressTx b) (cmdWaddr s.params s.params.txAddrReg) b) s

/-- wire.write_registers_bulk (R82, R164). -/
def execWireWriteRegistersBulk (b : BufRef) (size : Nat) (s : State) : Host.Outcome State Fault Refusal :=
  withCapacity b size (frameBulk (.wireWriteRegistersBulk b size) b size) s

end Sys2Proof.Machine
end

