-- ==== Sys2Proof/Machine/Dispatch.lean ====
section
/-! DEFINITION. One arm per row of spec/opcode_table.json. -/

namespace Sys2Proof.Machine

def exec (i : Instr) (s : State) : Host.Outcome State Fault Refusal :=
  match i with
  | .select => Sys2Proof.Machine.execSelect s
  | .deselect => Sys2Proof.Machine.execDeselect s
  | .sendByte value => Sys2Proof.Machine.execSendByte value s
  | .sendZeroReceiveByte => Sys2Proof.Machine.execSendZeroReceiveByte s
  | .writeRegister reg value => Sys2Proof.Machine.execWriteRegister reg value s
  | .readRegister reg => Sys2Proof.Machine.execReadRegister reg s
  | .command opcode => Sys2Proof.Machine.execCommand opcode s
  | .readPayload buf size => Sys2Proof.Machine.execReadPayload buf size s
  | .writePayload buf size => Sys2Proof.Machine.execWritePayload buf size s
  | .writeAddressRx0 buf => Sys2Proof.Machine.execWriteAddressRx0 buf s
  | .writeAddressTx buf => Sys2Proof.Machine.execWriteAddressTx buf s
  | .writeRegistersBulk buf size => Sys2Proof.Machine.execWriteRegistersBulk buf size s
  | .reservedC => Sys2Proof.Machine.execReservedC s
  | .reservedD => Sys2Proof.Machine.execReservedD s
  | .reservedE => Sys2Proof.Machine.execReservedE s
  | .reservedF => Sys2Proof.Machine.execReservedF s
  | .wireWriteRegister reg value => Sys2Proof.Machine.execWireWriteRegister reg value s
  | .wireReadRegister reg => Sys2Proof.Machine.execWireReadRegister reg s
  | .wireCommand opcode => Sys2Proof.Machine.execWireCommand opcode s
  | .wireReadPayload buf size => Sys2Proof.Machine.execWireReadPayload buf size s
  | .wireWritePayload buf size => Sys2Proof.Machine.execWireWritePayload buf size s
  | .wireWriteAddressRx0 buf => Sys2Proof.Machine.execWireWriteAddressRx0 buf s
  | .wireWriteAddressTx buf => Sys2Proof.Machine.execWireWriteAddressTx buf s
  | .wireWriteRegistersBulk buf size => Sys2Proof.Machine.execWireWriteRegistersBulk buf size s

end Sys2Proof.Machine
end

