-- ==== Sys2Proof/Machine/Step.lean ====
section
/-! DEFINITION. One step: the host's next request, run to completion (10_state.md R26; 20_memory.md R66). -/

namespace Sys2Proof.Machine

/-- One step. With no request the block does nothing and holds its latches (60_exceptions.md R205); otherwise it takes the first
request, decodes it under its constants and runs it to completion. -/
def step (s : State) : Host.Outcome State Fault Refusal :=
  match s.requests with
  | [] => .next s
  | r :: rest => exec (decode s.params r) { s with requests := rest }

/-- The request a table word makes, put where `step` takes its next request, in place of the one there. A `WIRE_CMD` word is an
instruction under `REF` only, so for one the constants are set to `REF` too (DESIGN CHOICE, log entry 8). -/
def State.withFetchWord (s : State) (nbits w : Nat) : State :=
  match tableCode nbits w with
  | .ok c => { s with requests := Request.ofTable c :: s.requests.tail, params := c.tableParams s.params }
  | .error _ => s

end Sys2Proof.Machine
end

