-- ==== Sys2Proof/Machine/Flags.lean ====
section
/-! DEFINITION. The block has no status flag, condition code or predicate: no operation sets or tests one (10_state.md R35). The
only conditions the spec computes are those an observer of the lines can see: edges and chip-select transitions (R42). They are
computed here; no rule of the block reads them. -/

namespace Sys2Proof.Machine

/-- A `drive(SCK,1)` when `L.SCK` = 0 is a rising edge (R42). -/
def isRising (l : Latches) : Action → Bool
  | .sck true => !l.sck
  | _ => false

/-- A `drive(SCK,0)` when `L.SCK` = 1 is a falling edge (R42). -/
def isFalling (l : Latches) : Action → Bool
  | .sck false => l.sck
  | _ => false

/-- A `drive(CS,·)` that changes `L.CS` is a chip-select transition (R42). -/
def isCsTransition (l : Latches) : Action → Bool
  | .cs c => decide (c ≠ l.cs)
  | _ => false

/-- A `drive` that changes `L.MOSI` (R66). -/
def isMosiChange (l : Latches) : Action → Bool
  | .mosi v => decide (v ≠ l.mosi)
  | _ => false

/-- A `drive` action, as against `settle` and `sample` (R42). -/
def isDrive : Action → Bool
  | .sck _ | .mosi _ | .cs _ => true
  | .settle | .sample _ => false

/-- A `sample()` action. -/
def isSample : Action → Bool
  | .sample _ => true
  | _ => false

end Sys2Proof.Machine
end

