-- ==== Sys2Proof/Machine/Traces.lean ====
section
/-! DEFINITION. The action lists the spec writes beside each primitive (40_bus_primitives.md R110 to R113), as lists and not as
loops: what a claim about `LT` names. -/

namespace Sys2Proof.Machine

/-- The k-th bit on the wire of a word is bit `7-k` (00_scope.md R13; 20_memory.md R57). -/
def wireBit (w : Byte) (k : Nat) : Level := w.getLsbD (7 - k)

/-- `rep(8, k -> [c0, d<v[7-k]>, c1, s]) ++ [c0, d0]` (R112). -/
def sendActions (v : Byte) : List Action :=
  (List.range 8).flatMap (fun k => [.sck false, .mosi (wireBit v k), .sck true, .settle]) ++ [.sck false, .mosi false]

/-- `[d0] ++ rep(8, k -> [c1, s, m<b_k>, c0, s])` (R113), for draws `b`. -/
def receiveActions (b : Nat → Level) : List Action :=
  [.mosi false] ++ (List.range 8).flatMap (fun k => [.sck true, .settle, .sample (b k), .sck false, .settle])

/-- The action list of one primitive call (10_state.md R41). -/
def Event.actions : Event → List Action
  | .sel => [.cs .active]
  | .desel => [.cs .inactive]
  | .tx v => sendActions v
  | .rx r => receiveActions (wireBit r)

/-- `LT` obtained from `WT` by replacing each event with the action list of its primitive (R41). -/
def traceOf (w : List Event) : List Action := w.flatMap Event.actions

/-- The words of a buffer's first `n` elements, sent in array order (20_memory.md R58). -/
def sentWords (s : State) (b : BufRef) (n : Nat) : List Event := (List.range n).map (fun k => .tx (s.bufRead b k))

/-- The next `n` words the chip presents, received in order. -/
def receivedWords (s : State) (n : Nat) : List Event := (List.range n).map (fun k => .rx (s.drawnWord k))

/-- An action with its data erased: which level data-out is driven to and what a sample returned are the only data-dependent choices
(10_state.md R33). -/
def Action.shape : Action → Action
  | .mosi _ => .mosi false
  | .sample _ => .sample false
  | a => a

/-- A primitive call with its data erased. -/
def Event.shape : Event → Event
  | .tx _ => .tx 0#8
  | .rx _ => .rx 0#8
  | e => e

end Sys2Proof.Machine

namespace Sys2Proof

open Sys2Proof.Machine

/-- The transaction formats (30_encoding.md R88): the primitive calls of an operation in order, which is what it appends to `WT`
(10_state.md R41). A reserved code has none (R97). -/
def Instr.words (s : State) : Instr → List Event
  | .select => [.sel]
  | .deselect => [.desel]
  | .sendByte value => [.tx (cut value)]
  | .sendZeroReceiveByte => [.rx (s.drawnWord 0)]
  | .writeRegister reg value => [.sel, .tx (cmdWreg s.params (cut reg)), .tx (cut value), .desel]
  | .readRegister reg => [.sel, .tx (cmdRreg s.params (cut reg)), .rx (s.drawnWord 0), .desel]
  | .command opcode => [.sel, .tx (cut opcode), .desel]
  | .readPayload _ n => [.sel, .tx s.params.rRxPayloadOp] ++ receivedWords s n ++ [.desel]
  | .writePayload b n => [.sel, .tx s.params.wTxPayloadOp] ++ sentWords s b n ++ [.desel]
  | .writeAddressRx0 b => [.sel, .tx (cmdWaddr s.params s.params.rxAddrP0Reg)] ++ sentWords s b Config.addrLen ++ [.desel]
  | .writeAddressTx b => [.sel, .tx (cmdWaddr s.params s.params.txAddrReg)] ++ sentWords s b Config.addrLen ++ [.desel]
  | .writeRegistersBulk b n => [.sel] ++ sentWords s b n ++ [.desel]
  | .reservedC => []
  | .reservedD => []
  | .reservedE => []
  | .reservedF => []
  | .wireWriteRegister reg value => [.sel, .tx (cmdWreg s.params reg), .tx (cut value), .desel]
  | .wireReadRegister reg => [.sel, .tx (cmdRreg s.params reg), .rx (s.drawnWord 0), .desel]
  | .wireCommand opcode => [.sel, .tx opcode, .desel]
  | .wireReadPayload _ n => [.sel, .tx s.params.rRxPayloadOp] ++ receivedWords s n ++ [.desel]
  | .wireWritePayload b n => [.sel, .tx s.params.wTxPayloadOp] ++ sentWords s b n ++ [.desel]
  | .wireWriteAddressRx0 b => [.sel, .tx (cmdWaddr s.params s.params.rxAddrP0Reg)] ++ sentWords s b Config.addrLen ++ [.desel]
  | .wireWriteAddressTx b => [.sel, .tx (cmdWaddr s.params s.params.txAddrReg)] ++ sentWords s b Config.addrLen ++ [.desel]
  | .wireWriteRegistersBulk b n => [.sel] ++ sentWords s b n ++ [.desel]

end Sys2Proof
end

