-- ==== Sys2Proof/Machine/Observe.lean ====
section
/-! DEFINITION. What an observer of the lines reads off a segment of `LT` replayed from known latches (10_state.md R42;
30_encoding.md R95). No rule of the block reads any of it. -/

namespace Sys2Proof.Machine

/-- The latches after a list of actions. -/
def replay (l : Latches) (t : List Action) : Latches := t.foldl Latches.apply l

/-- How many actions of a segment satisfy `p`, which sees the latches just before each. -/
def countAlong (p : Latches → Action → Bool) : Latches → List Action → Nat
  | _, [] => 0
  | l, a :: t => (if p l a then 1 else 0) + countAlong p (l.apply a) t

/-- Rising edges of `L.SCK` (R42). -/
def risingEdges (l : Latches) (t : List Action) : Nat := countAlong isRising l t

/-- Falling edges of `L.SCK` (R42). -/
def fallingEdges (l : Latches) (t : List Action) : Nat := countAlong isFalling l t

/-- Chip-select transitions (R42). -/
def csTransitions (l : Latches) (t : List Action) : Nat := countAlong isCsTransition l t

/-- The number of `sample()` actions. -/
def samplesIn (t : List Action) : Nat := t.countP isSample

/-- The number of `settle()` actions. -/
def settlesIn (t : List Action) : Nat := t.countP (fun a => a == .settle)

/-- The waveform (R42): the latches after each `drive` action. -/
def waveform : Latches → List Action → List Latches
  | _, [] => []
  | l, a :: t => (if isDrive a then [l.apply a] else []) ++ waveform (l.apply a) t

/-- `mosi_bits(T)` (R95): `L.MOSI` at each rising edge of `L.SCK`. -/
def mosiBits : Latches → List Action → List Level
  | _, [] => []
  | l, a :: t => (if isRising l a then [l.mosi] else []) ++ mosiBits (l.apply a) t

/-- Eight bits read most-significant-bit first. -/
def wordOf8 (b7 b6 b5 b4 b3 b2 b1 b0 : Level) : Byte :=
  BitVec.ofBool b7 ++ BitVec.ofBool b6 ++ BitVec.ofBool b5 ++ BitVec.ofBool b4 ++ BitVec.ofBool b3 ++ BitVec.ofBool b2
    ++ BitVec.ofBool b1 ++ BitVec.ofBool b0

/-- Bits cut into groups of 8, each read most-significant-bit first (R95); defined when their number is a multiple of 8. -/
def wordsOf : List Level → Option (List Byte)
  | [] => some []
  | b7 :: b6 :: b5 :: b4 :: b3 :: b2 :: b1 :: b0 :: rest => (wordsOf rest).map (wordOf8 b7 b6 b5 b4 b3 b2 b1 b0 :: ·)
  | _ => none

/-- `mosi_words(T)` (R95). -/
def mosiWords (l : Latches) (t : List Action) : Option (List Byte) := wordsOf (mosiBits l t)

/-- `miso_bits(T)` (R95): what the `sample()` actions returned, in order. -/
def misoBits (t : List Action) : List Level :=
  t.filterMap fun
    | .sample b => some b
    | _ => none

/-- `miso_words(T)` (R95). -/
def misoWords (t : List Action) : Option (List Byte) := wordsOf (misoBits t)

/-- Data-out changes only while the clock latch is 0 (20_memory.md R66 (3); 70_reset_and_hazards.md R232). -/
def keepsDataSetup : Latches → List Action → Bool
  | _, [] => true
  | l, a :: t => (!isMosiChange l a || !l.sck) && keepsDataSetup (l.apply a) t

/-- A sample is taken only while the clock latch is 1 and after the `settle()` that follows the rising edge (R66 (4), R232);
`settled` says that such a `settle()` has come since the last clock drive. -/
def keepsSampleSetup : Latches → Bool → List Action → Bool
  | _, _, [] => true
  | l, settled, a :: t =>
      (!isSample a || (l.sck && settled))
        && keepsSampleSetup (l.apply a)
            (match a with | .settle => l.sck | .sck _ => false | .mosi _ | .cs _ | .sample _ => settled) t

/-- The electrical level of the chip-select line (10_state.md R23; 00_scope.md R11). No rule depends on it. -/
def csLevel (p : Params) (c : CsState) : Level :=
  match c with
  | .active => p.csActiveLevel
  | .inactive => !p.csActiveLevel

/-- The duration of an operation (70_reset_and_hazards.md R241), from the time of one HAL call and one cycle time. No rule depends
on it. -/
def duration (p : Params) (callTime cycleTime : Nat) (t : List Action) : Nat :=
  (t.length - settlesIn t) * callTime + settlesIn t * p.settleCycles * cycleTime

/-- A returned word as a host of a wider type sees it: zero-extended (10_state.md R43, D32). -/
def resultAs (n : Nat) (r : Byte) : BitVec n := r.setWidth n

end Sys2Proof.Machine
end

