-- ==== Sys2Proof/Machine/Doubles.lean ====
section
/-! DEFINITION. Chip models a claim may name (20_memory.md R70): the spec's own test doubles (95_test_vectors.md part 2). A chip model
sees the waveform and nothing else (R71) and may constrain what a sample returns. It is no part of the machine. -/

namespace Sys2Proof.Machine

/-- A chip model: how each further point of the waveform changes its state (the point before it is given too), and what it answers
to a sample taken at the waveform's last point, if it constrains it. It is told of no other action: a settle or a sample passes it
unseen (R71, 10_state.md R42). -/
structure Chip (σ : Type) where
  observe : σ → Latches → Latches → σ
  answer : σ → Latches → Option Level

/-- The chip's state after a stretch of waveform that follows a point. -/
def Chip.along {σ : Type} (c : Chip σ) : σ → Latches → List Latches → σ
  | e, _, [] => e
  | e, l, m :: w => c.along (c.observe e l m) m w

/-- The chip's state after a segment: it depends on the segment's waveform alone (R71). -/
def Chip.after {σ : Type} (c : Chip σ) (e : σ) (l : Latches) (t : List Action) : σ := c.along e l (waveform l t)

/-- A sample of the segment returned what the chip answers. -/
def agreesAt (answer : Option Level) : Action → Bool
  | .sample b => (match answer with | some v => b == v | none => true)
  | .sck _ | .mosi _ | .cs _ | .settle => true

/-- Every sample of a segment returned what the chip, started in a state, answers there. -/
def Chip.agrees {σ : Type} (c : Chip σ) : σ → Latches → List Action → Bool
  | _, _, [] => true
  | e, l, a :: t => agreesAt (c.answer e l) a && c.agrees (c.after e l [a]) (l.apply a) t

/-- `FEED(v)`: the k-th sample of a word is bit `7-k` of `v`. -/
def feed (v : Byte) : List Level := (List.range 8).map (wireBit v)

/-- Two neighbouring points of the waveform between which chip-select was activated. -/
def activates (l m : Latches) : Bool := l.cs == .inactive && m.cs == .active

/-- Two neighbouring points between which chip-select was deactivated. -/
def deactivates (l m : Latches) : Bool := l.cs == .active && m.cs == .inactive

/-- Two neighbouring points with a rising edge of the clock between them, chip-select being active. -/
def clocksBit (l m : Latches) : Bool := !l.sck && m.sck && m.cs == .active

/-- What a chip has taken off data-out in the session so far. -/
structure Taken where
  /-- The bits of the word under way. -/
  acc : Byte
  nbits : Nat
  /-- The completed words of the session, in order. -/
  words : List Byte
  deriving DecidableEq, Repr, Inhabited

/-- A chip-select activation resets bit and word counters; a rising edge while chip-select is active takes one bit, MSB first. -/
def Taken.observe (k : Taken) (l m : Latches) : Taken :=
  if activates l m then ⟨0#8, 0, []⟩
  else if clocksBit l m then
    if k.nbits = 7 then ⟨0#8, 0, k.words ++ [(k.acc <<< 1) ||| (if m.mosi then 1#8 else 0#8)]⟩
    else { k with acc := (k.acc <<< 1) ||| (if m.mosi then 1#8 else 0#8), nbits := k.nbits + 1 }
  else k

/-- How many bits of the session the chip has taken: the rising edges it counted. -/
def Taken.count (k : Taken) : Nat := 8 * k.words.length + k.nbits

/-- The place in the session, the session's first word being word 0, of the bit the last rising edge clocked: its word. DEDUCED (log
entry 19): a sample belongs to the word and the bit that the rising edge before it clocked, which is all the waveform shows. -/
def Taken.word (k : Taken) : Nat := (k.count - 1) / 8

/-- The place of that bit inside its word, 0 first. -/
def Taken.bit (k : Taken) : Nat := (k.count - 1) % 8

/-- The echo chip's state. -/
structure Echo where
  store : Byte → Byte
  taken : Taken

/-- Whether a first word puts the echo chip in write mode. -/
def echoWrites (p : Params) (c : Byte) : Bool := c &&& p.wRegisterBit == p.wRegisterBit

/-- The echo chip's store once a word is complete: in write mode the second word of a session is stored under the first word's
address; words after the second are ignored. -/
def echoStore (p : Params) (store : Byte → Byte) : List Byte → Byte → Byte
  | [c, w] => if echoWrites p c then fun x => if x = c &&& ~~~p.wRegisterBit then w else store x else store
  | _ => store

/-- `ECHO`: it files a write under `CMD & ~W_REGISTER_BIT` and answers the eight samples of a read's second word from `store[CMD]`,
MSB first. DEDUCED (log entry 19): in write mode it answers 0 in the second word, as the vector of 95_test_vectors.md 3.3 with `K1`
broken has it (part 2 is silent); in either mode it answers in no later word of the session, and none once the session is closed. -/
def echo (p : Params) : Chip Echo where
  observe e l m :=
    let k := e.taken.observe l m
    { store := if k.words.length = e.taken.words.length then e.store else echoStore p e.store k.words, taken := k }
  answer e l :=
    match e.taken.words with
    | [] => none
    | c :: _ => if l.cs = .active ∧ e.taken.word = 1 then some (!echoWrites p c && wireBit (e.store c) e.taken.bit) else none

/-- The payload chip's state. -/
structure Pay where
  pl : List Byte
  taken : Taken
  deriving DecidableEq, Repr, Inhabited

/-- `PAY`: a session that begins with `W_TX_PAYLOAD_OP` sets the stored payload to its following words when it is closed; one that
begins with `R_RX_PAYLOAD_OP` answers the samples of its i-th following word with `pl[i]`, MSB first, whether the words before it
were sent or received. DEDUCED (log entry 19): it answers none once the session is closed, and stores its payload at the deselect.
DESIGN CHOICE (log entry 19): where the two opcodes are one byte, a session that begins with it does both. -/
def pay (p : Params) : Chip Pay where
  observe e l m :=
    let pl := match deactivates l m, e.taken.words with
      | true, c :: rest => if c = p.wTxPayloadOp then rest else e.pl
      | _, _ => e.pl
    { pl := pl, taken := e.taken.observe l m }
  answer e l :=
    match e.taken.words, e.taken.word with
    | c :: _, i + 1 => if l.cs = .active ∧ c = p.rRxPayloadOp then (e.pl[i]?).map (fun w => wireBit w e.taken.bit) else none
    | _, _ => none

end Sys2Proof.Machine
end

