-- ==== Sys2Proof/Machine/Launch.lean ====
section
/-! DEFINITION. The launch procedure of the HAL and the host (70_reset_and_hazards.md R222, D12), before the first operation. It is
no operation of the block: nothing of it is recorded in a trace. -/

namespace Sys2Proof.Machine

/-- With the lines configured: drive chip-select inactive, then the clock low, then, optionally, data-out low (R222). -/
def Latches.launch (mosiToo : Bool) (l : Latches) : Latches :=
  let l := l.apply (.cs .inactive)
  let l := l.apply (.sck false)
  if mosiToo then l.apply (.mosi false) else l

/-- The machine after the launch procedure. -/
def State.launch (mosiToo : Bool) (s : State) : State := { s with latches := s.latches.launch mosiToo }

end Sys2Proof.Machine
end

