-- ==== Sys2Proof/Safety.lean ====
section
/-! DEFINITION. What counts as a good state and a good run, in the terms claims use. -/

namespace Sys2Proof.Machine

/-- The launch premise `Idle` in state terms (70_reset_and_hazards.md R222): `L.CS` = inactive and `L.SCK` = 0. -/
abbrev State.Idle (s : State) : Prop := s.latches.cs = .inactive ∧ s.latches.sck = false

/-- No operation is in progress and no operation-local register exists (10_state.md R20, R30, R33, R45). -/
abbrev State.Quiescent (s : State) : Prop :=
  s.seq = .idle ∧ s.txv = none ∧ s.acc = none ∧ s.idx = none ∧ s.cnt = none ∧ s.cmd = none

/-- The bit-bang bus is linked in (00_scope.md R7). -/
abbrev State.Bitbang (s : State) : Prop := s.params.busImpl = .bitbang

/-- `LT` is `WT` with each event replaced by the action list of its primitive (10_state.md R41). -/
abbrev State.TracesAgree (s : State) : Prop := s.lt = traceOf s.wt

/-- The latches are what replaying `LT` from the latches at launch gives (R21 to R24, R40). -/
abbrev State.ReplaysFrom (l : Latches) (s : State) : Prop := replay l s.lt = s.latches

/-- What every step keeps, from any state: the memory's canonical form, no operation in progress between steps, and on the bit-bang
bus the clock latch low (40_bus_primitives.md R122). -/
abbrev State.Inv (s : State) : Prop := s.mem.wf = true ∧ s.Quiescent ∧ (s.Bitbang → s.latches.sck = false)

end Sys2Proof.Machine

namespace Sys2Proof

/-- A reserved operation code (30_encoding.md R97). -/
def Instr.isReserved : Instr → Bool
  | .reservedC | .reservedD | .reservedE | .reservedF => true
  | .select | .deselect | .sendByte _ | .sendZeroReceiveByte => false
  | .writeRegister _ _ | .readRegister _ | .command _ => false
  | .readPayload _ _ | .writePayload _ _ | .writeAddressRx0 _ | .writeAddressTx _ | .writeRegistersBulk _ _ => false
  | .wireWriteRegister _ _ | .wireReadRegister _ | .wireCommand _ => false
  | .wireReadPayload _ _ | .wireWritePayload _ _ | .wireWriteAddressRx0 _ | .wireWriteAddressTx _ => false
  | .wireWriteRegistersBulk _ _ => false

/-- A protocol-layer operation, which frames one transaction between select and deselect (00_scope.md R19). -/
def Instr.isFramer : Instr → Bool
  | .select | .deselect | .sendByte _ | .sendZeroReceiveByte => false
  | .reservedC | .reservedD | .reservedE | .reservedF => false
  | .writeRegister _ _ | .readRegister _ | .command _ => true
  | .readPayload _ _ | .writePayload _ _ | .writeAddressRx0 _ | .writeAddressTx _ | .writeRegistersBulk _ _ => true
  | .wireWriteRegister _ _ | .wireReadRegister _ | .wireCommand _ => true
  | .wireReadPayload _ _ | .wireWritePayload _ _ | .wireWriteAddressRx0 _ | .wireWriteAddressTx _ => true
  | .wireWriteRegistersBulk _ _ => true

/-- An operation that stores into the caller's buffer: read_payload alone (20_memory.md R54). -/
def Instr.stores : Instr → Option (BufRef × Nat)
  | .readPayload b n | .wireReadPayload b n => some (b, n)
  | .select | .deselect | .sendByte _ | .sendZeroReceiveByte => none
  | .writeRegister _ _ | .readRegister _ | .command _ => none
  | .writePayload _ _ | .writeAddressRx0 _ | .writeAddressTx _ | .writeRegistersBulk _ _ => none
  | .reservedC | .reservedD | .reservedE | .reservedF => none
  | .wireWriteRegister _ _ | .wireReadRegister _ | .wireCommand _ => none
  | .wireWritePayload _ _ | .wireWriteAddressRx0 _ | .wireWriteAddressTx _ | .wireWriteRegistersBulk _ _ => none

/-- How many words an operation receives, which is an eighth of its samples (R61; 42_payload_and_address.md R172). -/
def Instr.received : Instr → Nat
  | .sendZeroReceiveByte | .readRegister _ | .wireReadRegister _ => 1
  | .readPayload _ n | .wireReadPayload _ n => n
  | .select | .deselect | .sendByte _ | .writeRegister _ _ | .command _ => 0
  | .writePayload _ _ | .writeAddressRx0 _ | .writeAddressTx _ | .writeRegistersBulk _ _ => 0
  | .reservedC | .reservedD | .reservedE | .reservedF => 0
  | .wireWriteRegister _ _ | .wireCommand _ => 0
  | .wireWritePayload _ _ | .wireWriteAddressRx0 _ | .wireWriteAddressTx _ | .wireWriteRegistersBulk _ _ => 0

/-- An operation with its operands erased, `size` apart: what its primitive sequence depends on (42_payload_and_address.md R171). -/
def Instr.form : Instr → Instr
  | .select => .select
  | .deselect => .deselect
  | .sendByte _ => .sendByte 0
  | .sendZeroReceiveByte => .sendZeroReceiveByte
  | .writeRegister _ _ => .writeRegister 0 0
  | .readRegister _ => .readRegister 0
  | .command _ => .command 0
  | .readPayload _ n => .readPayload ⟨0, 0⟩ n
  | .writePayload _ n => .writePayload ⟨0, 0⟩ n
  | .writeAddressRx0 _ => .writeAddressRx0 ⟨0, 0⟩
  | .writeAddressTx _ => .writeAddressTx ⟨0, 0⟩
  | .writeRegistersBulk _ n => .writeRegistersBulk ⟨0, 0⟩ n
  | .reservedC => .reservedC
  | .reservedD => .reservedD
  | .reservedE => .reservedE
  | .reservedF => .reservedF
  | .wireWriteRegister _ _ => .wireWriteRegister 0#8 0
  | .wireReadRegister _ => .wireReadRegister 0#8
  | .wireCommand _ => .wireCommand 0#8
  | .wireReadPayload _ n => .wireReadPayload ⟨0, 0⟩ n
  | .wireWritePayload _ n => .wireWritePayload ⟨0, 0⟩ n
  | .wireWriteAddressRx0 _ => .wireWriteAddressRx0 ⟨0, 0⟩
  | .wireWriteAddressTx _ => .wireWriteAddressTx ⟨0, 0⟩
  | .wireWriteRegistersBulk _ n => .wireWriteRegistersBulk ⟨0, 0⟩ n

/-- The sends of a buffer's first `n` elements, as calls a host makes. -/
def sendCalls (s : Machine.State) (b : BufRef) (n : Nat) : List Instr :=
  (List.range n).map (fun k => .sendByte (s.bufRead b k).toNat)

/-- The expansion of a framer into primitives (30_encoding.md R101); a primitive is its own. -/
def Instr.expansion (s : Machine.State) : Instr → List Instr
  | .select => [.select]
  | .deselect => [.deselect]
  | .sendByte value => [.sendByte value]
  | .sendZeroReceiveByte => [.sendZeroReceiveByte]
  | .writeRegister reg value => [.select, .sendByte (cmdWreg s.params (cut reg)).toNat, .sendByte value, .deselect]
  | .readRegister reg => [.select, .sendByte (cmdRreg s.params (cut reg)).toNat, .sendZeroReceiveByte, .deselect]
  | .command opcode => [.select, .sendByte opcode, .deselect]
  | .readPayload _ n =>
      [.select, .sendByte s.params.rRxPayloadOp.toNat] ++ List.replicate n .sendZeroReceiveByte ++ [.deselect]
  | .writePayload b n => [.select, .sendByte s.params.wTxPayloadOp.toNat] ++ sendCalls s b n ++ [.deselect]
  | .writeAddressRx0 b =>
      [.select, .sendByte (cmdWaddr s.params s.params.rxAddrP0Reg).toNat] ++ sendCalls s b Config.addrLen ++ [.deselect]
  | .writeAddressTx b =>
      [.select, .sendByte (cmdWaddr s.params s.params.txAddrReg).toNat] ++ sendCalls s b Config.addrLen ++ [.deselect]
  | .writeRegistersBulk b n => [.select] ++ sendCalls s b n ++ [.deselect]
  | .reservedC => []
  | .reservedD => []
  | .reservedE => []
  | .reservedF => []
  | .wireWriteRegister reg value => [.select, .sendByte (cmdWreg s.params reg).toNat, .sendByte value, .deselect]
  | .wireReadRegister reg => [.select, .sendByte (cmdRreg s.params reg).toNat, .sendZeroReceiveByte, .deselect]
  | .wireCommand opcode => [.select, .sendByte opcode.toNat, .deselect]
  | .wireReadPayload _ n =>
      [.select, .sendByte s.params.rRxPayloadOp.toNat] ++ List.replicate n .sendZeroReceiveByte ++ [.deselect]
  | .wireWritePayload b n => [.select, .sendByte s.params.wTxPayloadOp.toNat] ++ sendCalls s b n ++ [.deselect]
  | .wireWriteAddressRx0 b =>
      [.select, .sendByte (cmdWaddr s.params s.params.rxAddrP0Reg).toNat] ++ sendCalls s b Config.addrLen ++ [.deselect]
  | .wireWriteAddressTx b =>
      [.select, .sendByte (cmdWaddr s.params s.params.txAddrReg).toNat] ++ sendCalls s b Config.addrLen ++ [.deselect]
  | .wireWriteRegistersBulk b n => [.select] ++ sendCalls s b n ++ [.deselect]

/-- A request the spec gives a meaning (10_state.md R44): no reserved code, and a buffer with room for the words moved (R56). -/
def Instr.accepted (i : Instr) : Bool :=
  !i.isReserved && (match i.moves with | none => true | some (b, n) => decide (n ≤ b.cap))

end Sys2Proof

namespace Sys2Proof.Machine

/-- A host that issues operations one after another (20_memory.md R66), stopping at the first refusal. -/
def runOps : List Instr → State → Host.Outcome State Fault Refusal
  | [], s => .next s
  | i :: rest, s =>
      match exec i s with
      | .next t => runOps rest t
      | .fault r => .fault r
      | .refused r => .refused r

/-- The word a primitive call puts on data-out: the word sent, or 0x00 while one is received (30_encoding.md R88). -/
def Event.outWord : Event → Option Byte
  | .tx v => some v
  | .rx _ => some 0#8
  | .sel => none
  | .desel => none

/-- The word a primitive call takes off data-in. -/
def Event.inWord : Event → Option Byte
  | .rx r => some r
  | .tx _ => none
  | .sel => none
  | .desel => none

/-- A completed operation's lines on the bit-bang bus: the actions `LT` gains are those of its primitive calls `w` in order, with
these counts of actions, rising edges, samples and settles; from an inactive chip-select there are 2 transitions; and the lines are
left idle (42_payload_and_address.md R170, R172). -/
abbrev SessionLines (s t : State) (w : List Event) (actions edges samples settles : Nat) : Prop :=
  ∃ T, t.lt = s.lt ++ T ∧ T = traceOf w ∧ T.length = actions ∧ risingEdges s.latches T = edges ∧ samplesIn T = samples ∧
    settlesIn T = settles ∧ (s.latches.cs = .inactive → csTransitions s.latches T = 2) ∧
    t.latches = ⟨false, false, .inactive⟩

/-- An operation touches nothing of the host's but what the spec says: its buffers' bytes, its coming requests and the build-time
constants are as before. -/
abbrev SameHost (s t : State) : Prop := t.mem = s.mem ∧ t.requests = s.requests ∧ t.params = s.params

/-- No draw of the environment was used: no sample was taken. -/
abbrev NoSample (s t : State) : Prop := t.miso = s.miso ∧ t.draws = s.draws

end Sys2Proof.Machine
end

