-- ==== Sys2Proof/Certificates/Slice0/Obligations.lean ====
section
/-! DEFINITION. Statements for the provers, each from the rules of spec/ its docstring names. -/

open Sys2Proof Sys2Proof.Machine

/-! ### The bus primitives (40_bus_primitives.md) -/

/-- R110: select drives chip-select active and does nothing else: one action, `[S]`; no transition if it was active. (Its request
code is the spec's own decision D8: OperationCodeTable.) -/
def Obligations.SelectDrivesActiveOnly : Prop :=
  ∀ s : State,
    ∃ t, exec .select s = .next t ∧ t.wt = s.wt ++ [.sel] ∧ t.result = none ∧
      SameHost s t ∧ NoSample s t ∧ t.Quiescent ∧
      (s.Bitbang → t.lt = s.lt ++ [.cs .active] ∧ t.latches = { s.latches with cs := .active } ∧
        csTransitions s.latches [.cs .active] = if s.latches.cs = .active then 0 else 1)

/-- R111: deselect drives chip-select inactive and does nothing else: one action, `[D]`; no transition if it was inactive.
(Its request code is the spec's own decision D8: OperationCodeTable.) -/
def Obligations.DeselectDrivesInactiveOnly : Prop :=
  ∀ s : State,
    ∃ t, exec .deselect s = .next t ∧ t.wt = s.wt ++ [.desel] ∧ t.result = none ∧
      SameHost s t ∧ NoSample s t ∧ t.Quiescent ∧
      (s.Bitbang → t.lt = s.lt ++ [.cs .inactive] ∧ t.latches = { s.latches with cs := .inactive } ∧
        csTransitions s.latches [.cs .inactive] = if s.latches.cs = .inactive then 0 else 1)

/-- R112: send_byte(value) performs the 34 actions of its list, most-significant bit first, tail clock then data-out (that order is the
spec's own decision D6); it samples nothing, does not touch chip-select and leaves clock and data-out low. Only bits 7 to 0 of the
host's value count (D15). -/
def Obligations.SendByteActionList : Prop :=
  ∀ (value : Nat) (s : State), ∃ t, exec (.sendByte value) s = .next t ∧
    t.wt = s.wt ++ [.tx (BitVec.ofNat 8 value)] ∧ t.result = none ∧ SameHost s t ∧ NoSample s t ∧ t.Quiescent ∧
    (s.Bitbang →
      (∃ T, t.lt = s.lt ++ T ∧ T.length = 34 ∧
        T = (List.range 8).flatMap (fun k =>
              [.sck false, .mosi ((BitVec.ofNat 8 value).getLsbD (7 - k)), .sck true, .settle])
            ++ [.sck false, .mosi false]) ∧
      t.latches = ⟨false, false, s.latches.cs⟩)

/-- R113: send_zero_receive_byte performs the 41 actions of its list, data-out driven low once at the head and `ACC` from 0 (the
spec's own decision D7), one sample in the high phase of each of 8 pulses, and returns the 8 draws as a word, first draw in bit 7;
clock and data-out are left low. (Here that a word's eight levels are the next eight draws, and that it uses eight, is R113's on the
bit-bang bus and the model's choice on an external bus, of which R115 says only that it returns the word the chip presented (log
entry 11).) -/
def Obligations.ReceiveByteActionList : Prop :=
  ∀ s : State, ∃ t r, exec .sendZeroReceiveByte s = .next t ∧ t.result = some r ∧
    (∀ k, k < 8 → r.getLsbD (7 - k) = s.drawAt k) ∧
    t.wt = s.wt ++ [.rx r] ∧ SameHost s t ∧ t.miso = s.miso.drop 8 ∧ t.draws = s.draws + 8 ∧ t.Quiescent ∧
    (s.Bitbang →
      (∃ T, t.lt = s.lt ++ T ∧ T.length = 41 ∧
        T = [.mosi false] ++ (List.range 8).flatMap (fun k =>
              [.sck true, .settle, .sample (s.drawAt k), .sck false, .settle])) ∧
      t.latches = ⟨false, false, s.latches.cs⟩)

/-- R120, send law, which the spec marks as derived from R112: from `L.SCK` = 0 a loopback observer of send_byte(v) reads back
`[v]`; 8 rising and 8 falling edges; data-out does not change while the clock is high. -/
def Obligations.SendLawLoopback : Prop :=
  ∀ (v : Byte) (s t : State), s.Bitbang → s.latches.sck = false → exec (.sendByte v.toNat) s = .next t →
    ∃ T, t.lt = s.lt ++ T ∧ mosiWords s.latches T = some [v] ∧ risingEdges s.latches T = 8 ∧ fallingEdges s.latches T = 8 ∧
      keepsDataSetup s.latches T = true

/-- R121, receive law, which the spec marks as derived from R113: the returned word is `miso_words(T)` whatever the draws; from
`L.SCK` = 0 there are 8 rising and 8 falling edges and data-out carries 0x00. -/
def Obligations.ReceiveLawLoopback : Prop :=
  ∀ s t : State, s.Bitbang → exec .sendZeroReceiveByte s = .next t →
    ∃ T r, t.lt = s.lt ++ T ∧ t.result = some r ∧ (∀ k, k < 8 → r.getLsbD (7 - k) = s.drawAt k) ∧ misoWords T = some [r] ∧
      (s.latches.sck = false → risingEdges s.latches T = 8 ∧ fallingEdges s.latches T = 8 ∧ mosiWords s.latches T = some [0#8])

/-- R70, R113 (the source's loopback feeder): whatever word the environment presents next, MSB first, is what is returned, and the
draws after it are left for later. (That coming draws are a list in the state is the model's choice, log entry 4; on an external bus
so is the word's being the next eight levels, log entry 11.) -/
def Obligations.FedWordIsReturned : Prop :=
  ∀ (v : Byte) (rest : List Level) (s : State),
    ∃ t, exec .sendZeroReceiveByte { s with miso := feed v ++ rest } = .next t ∧ t.result = some v ∧ t.miso = rest

/-- R122, idle law, which the spec marks as derived: from any latches a sequence of primitives that ends with a word leaves clock and
data-out low, one that ends with select or deselect leaves chip-select so; started with the clock low it ends with the clock low, and
every word of it has exactly 8 rising edges. -/
def Obligations.PrimitiveRunsKeepClockLow : Prop :=
  ∀ (ops : List Instr) (s t : State), (∀ i ∈ ops, i.isFramer = false) → s.Bitbang → runOps ops s = .next t →
    ∃ T W, t.lt = s.lt ++ T ∧ t.wt = s.wt ++ W ∧ W.length = ops.length ∧
      (∀ e, W.getLast? = some e → (∀ v, e = .tx v → t.latches.sck = false ∧ t.latches.mosi = false) ∧
        (∀ r, e = .rx r → t.latches.sck = false ∧ t.latches.mosi = false) ∧
        (e = .sel → t.latches.cs = .active) ∧ (e = .desel → t.latches.cs = .inactive)) ∧
      (s.latches.sck = false → t.latches.sck = false ∧ risingEdges s.latches T = 8 * (W.filterMap Event.outWord).length)

/-- R124, broken idle contract, which the spec marks as derived: a word started with the clock high. send_byte makes one extra
falling edge and still 8 rising ones; send_zero_receive_byte makes 7 rising edges and still takes 8 samples; both complete and
report nothing. -/
def Obligations.BrokenIdleEdges : Prop :=
  ∀ s : State, s.Bitbang → s.latches.sck = true →
    (∀ value, ∃ t T, exec (.sendByte value) s = .next t ∧ t.lt = s.lt ++ T ∧
      risingEdges s.latches T = 8 ∧ fallingEdges s.latches T = 9 ∧ T.head? = some (.sck false)) ∧
    (∃ t T, exec .sendZeroReceiveByte s = .next t ∧ t.lt = s.lt ++ T ∧
      risingEdges s.latches T = 7 ∧ fallingEdges s.latches T = 8 ∧ samplesIn T = 8)

/-- R125, which the spec marks as derived: the number of actions of each kind a primitive performs. -/
def Obligations.PrimitiveActionCounts : Prop :=
  ∀ s t : State, s.Bitbang →
    (exec .select s = .next t → t.lt.length = s.lt.length + 1) ∧
    (exec .deselect s = .next t → t.lt.length = s.lt.length + 1) ∧
    (∀ value, exec (.sendByte value) s = .next t → ∃ T, t.lt = s.lt ++ T ∧ T.length = 34 ∧ T.count (.sck false) = 9 ∧
      T.count (.sck true) = 8 ∧ T.count (.mosi false) + T.count (.mosi true) = 9 ∧ settlesIn T = 8 ∧ samplesIn T = 0) ∧
    (exec .sendZeroReceiveByte s = .next t → ∃ T, t.lt = s.lt ++ T ∧ T.length = 41 ∧ T.count (.sck true) = 8 ∧
      T.count (.sck false) = 8 ∧ T.count (.mosi false) = 1 ∧ T.count (.mosi true) = 0 ∧ settlesIn T = 16 ∧ samplesIn T = 8)

/-- R123, which the spec marks as derived: the datapath's integer laws: `(TXV >> IDX) & 1` is bit `IDX`; `(ACC << 1)[7:0]` clears
bit 0 and OR-ing 1 into it adds 1; `reg & 0x3F` is `reg mod 64`; OR is addition only where no 1 bits overlap. -/
def Obligations.DatapathIntegerLaws : Prop :=
  (∀ (v : Byte) (i : BitVec 3), bitAt v i = v.getLsbD i.toNat) ∧
  (∀ a : Byte, (a <<< 1).getLsbD 0 = false ∧ ((a <<< 1) ||| 1#8).toNat = (a <<< 1).toNat + 1) ∧
  (∀ reg : Byte, (reg &&& Config.writeAddrMask).toNat = reg.toNat % 64) ∧
  (∀ (p : Params) (reg : Byte), (cmdWreg p reg).toNat = (reg &&& Config.writeAddrMask).toNat + p.wRegisterBit.toNat ↔
    reg &&& Config.writeAddrMask &&& p.wRegisterBit = 0#8)

/-- R32: after the first `j` bits of an incoming word `ACC` holds the `j` samples taken so far in its low bits, earliest highest, and
zeros above them (it starts at 0 by the spec's decision D7). -/
def Obligations.AccumulatorHoldsSamplesSoFar : Prop :=
  ∀ (s : State) (j i : Nat), j ≤ 8 → i < 8 →
    ((List.range j).foldl (fun u k => receiveBit (7 - k) u) (s.setAcc 0#8)).readAcc.getLsbD i =
      (decide (i < j) && s.drawAt (j - 1 - i))

/-- R31, R32, R34: one outgoing bit of `TXV`: `TXV` is not shifted, `IDX` is the bit's index, `ACC` is left alone, data-out and clock
are left at that bit and high. One incoming bit, in every state: `IDX` is the bit's index, `ACC` is shifted left with the sample in
bit 0, `TXV` and data-out are left alone and the clock is left low. -/
def Obligations.BitLoopRegisters : Prop :=
  ∀ (s : State) (k : Nat), k < 8 →
    (∀ v, s.txv = some v →
      (sendBit k s).txv = some v ∧ (sendBit k s).idx = some (BitVec.ofNat 3 k) ∧ (sendBit k s).acc = s.acc ∧
      (sendBit k s).latches = ⟨true, v.getLsbD k, s.latches.cs⟩) ∧
    (receiveBit k s).txv = s.txv ∧ (receiveBit k s).idx = some (BitVec.ofNat 3 k) ∧
    (receiveBit k s).latches = { s.latches with sck := false } ∧
    (∀ a, s.acc = some a → (receiveBit k s).acc = some ((a <<< 1) ||| (if s.drawAt 0 then 1#8 else 0#8)))

/-- R33 and R30 as the model reads them: on the bit-bang bus `SEQ` advances by one place per action of each primitive, and no register
of a primitive exists after it. That `SEQ` is a count of actions (log entry 13, DEDUCED, from the spec's decision D27) and that the
word loops leave `CNT` at their last index (log entry 13: no rule says where `CNT` ends) are the model's choice. -/
def Obligations.SequencerCountsActions : Prop :=
  ∀ (op : Instr) (done : Nat) (v : Byte) (b : BufRef) (n : Nat) (s : State), s.Bitbang → s.seq = .busy op done →
    (select s).seq = .busy op (done + 1) ∧ (deselect s).seq = .busy op (done + 1) ∧
    (sendByte v s).seq = .busy op (done + 34) ∧ (sendByte v s).txv = none ∧ (sendByte v s).idx = none ∧
    (receiveByte s).2.seq = .busy op (done + 41) ∧ (receiveByte s).2.acc = none ∧ (receiveByte s).2.idx = none ∧
    (sendWords b 0 (n + 1) s).seq = .busy op (done + 34 * (n + 1)) ∧ (sendWords b 0 (n + 1) s).cnt = some n ∧
    (receiveWords b 0 (n + 1) s).seq = .busy op (done + 41 * (n + 1)) ∧ (receiveWords b 0 (n + 1) s).cnt = some n

/-! ### Register access framers (41_register_access.md) -/

/-- write_register as the spec's section on it gives it (R140, R88, R172): write_register(reg, value) is one session that sends
`(reg[7:0] & 0x3F) | W_REGISTER_BIT` and then `value[7:0]`: 70 actions, 16 rising edges, no sample, 2 chip-select transitions; lines
left idle; it returns nothing and changes nothing else. (Its request code is the spec's own decision D8: OperationCodeTable; the
order of actions inside a word is D6's, that `LT` is the expansion of `WT` and the settles counted are derived rules, the cut of a
wide operand is D15.) -/
def Obligations.WriteRegisterTransaction : Prop :=
  ∀ (reg value : Nat) (s : State),
    ∃ t, exec (.writeRegister reg value) s = .next t ∧
      t.wt = s.wt ++ [.sel, .tx ((BitVec.ofNat 8 reg &&& 0x3F#8) ||| s.params.wRegisterBit), .tx (BitVec.ofNat 8 value), .desel] ∧
      t.result = none ∧ SameHost s t ∧ NoSample s t ∧ t.Quiescent ∧
      (s.Bitbang → SessionLines s t
        [.sel, .tx ((BitVec.ofNat 8 reg &&& 0x3F#8) ||| s.params.wRegisterBit), .tx (BitVec.ofNat 8 value), .desel] 70 16 0 16)

/-- read_register as the spec's section on it gives it (R141, R88, R172): read_register(reg) is one session that sends `reg[7:0] &
READ_ADDR_MASK` and returns the 8 draws of its second word; 77 actions, 16 rising edges, 8 samples, 2 chip-select transitions; lines
left idle; `MOSI` carries 0x00 in the second word. (Its request code is the spec's own decision D8: OperationCodeTable; the order of
actions inside a word is D6's and D7's, that `LT` is the expansion of `WT` and the settles counted are derived rules, the cut of a
wide operand is D15, the eight draws of a word on an external bus log entry 11.) -/
def Obligations.ReadRegisterTransaction : Prop :=
  ∀ (reg : Nat) (s : State),
    ∃ t r, exec (.readRegister reg) s = .next t ∧ t.result = some r ∧
      (∀ k, k < 8 → r.getLsbD (7 - k) = s.drawAt k) ∧
      t.wt = s.wt ++ [.sel, .tx (BitVec.ofNat 8 reg &&& s.params.readAddrMask), .rx r, .desel] ∧
      SameHost s t ∧ t.miso = s.miso.drop 8 ∧ t.draws = s.draws + 8 ∧ t.Quiescent ∧
      (s.Bitbang → SessionLines s t [.sel, .tx (BitVec.ofNat 8 reg &&& s.params.readAddrMask), .rx r, .desel] 77 16 8 24)

/-- command as the spec's section on it gives it (R142, R88, R172): command(opcode) is one session that sends the raw opcode and
nothing more; the opcode is neither masked nor checked; 36 actions, 8 rising edges; nothing is received. (Its request code is the
spec's own decision D8: OperationCodeTable; the order of actions inside a word is D6's, that `LT` is the expansion of `WT` and the
settles counted are derived rules, the cut of a wide operand is D15.) -/
def Obligations.CommandTransaction : Prop :=
  ∀ (opcode : Nat) (s : State),
    ∃ t, exec (.command opcode) s = .next t ∧
      t.wt = s.wt ++ [.sel, .tx (BitVec.ofNat 8 opcode), .desel] ∧
      t.result = none ∧ SameHost s t ∧ NoSample s t ∧ t.Quiescent ∧
      (s.Bitbang → SessionLines s t [.sel, .tx (BitVec.ofNat 8 opcode), .desel] 36 8 0 8)

/-- R146, masking invariant, which the spec marks as derived: masking the register operand beforehand changes neither trace, for
writes with 0x3F and for reads with `READ_ADDR_MASK`. -/
def Obligations.MaskingInvariant : Prop :=
  ∀ (reg value : Byte) (s t u : State),
    (exec (.writeRegister reg.toNat value.toNat) s = .next t →
      exec (.writeRegister (reg &&& 0x3F#8).toNat value.toNat) s = .next u → t.wt = u.wt ∧ t.lt = u.lt) ∧
    (exec (.readRegister reg.toNat) s = .next t →
      exec (.readRegister (reg &&& s.params.readAddrMask).toNat) s = .next u → t.wt = u.wt ∧ t.lt = u.lt)

/-- R145, which the spec marks as derived: what the write session and the read session carry on data-out, and that against the
echo chip, under `K0` and `K1`, reading back a register 0 to 63 returns the word written, whatever the chip's store held. (The
chip is the spec's own test double, read as log entry 19 says.) -/
def Obligations.WriteThenReadAgainstEcho : Prop :=
  ∀ (reg value : Nat) (e : Echo) (s t u : State), reg < 64 → s.Bitbang → s.Idle → s.params.K0 → s.params.K1 →
    exec (.writeRegister reg value) s = .next t → exec (.readRegister reg) t = .next u →
    ∃ T U, t.lt = s.lt ++ T ∧ u.lt = t.lt ++ U ∧
      mosiWords s.latches T = some [cmdWreg s.params (cut reg), cut value] ∧
      mosiWords t.latches U = some [cmdRreg s.params (cut reg), 0#8] ∧
      ((echo s.params).agrees e s.latches (T ++ U) = true → u.result = some (cut value))

/-! ### Payload, address and bulk framers (42_payload_and_address.md) -/

/-- R160: with capacity for `size` words, read_payload sends `R_RX_PAYLOAD_OP`, receives `size` words and stores the i-th at element
i; other bytes unchanged; 36 + 41·size actions, 8 + 8·size rising edges, 8·size samples. (In the host clauses, that the buffer is a
window of one flat memory, every other byte of which stays, is log entry 5; that a word's eight levels are the next eight draws, and
that it uses eight, is R113's on the bit-bang bus and the model's choice on an external bus, of which R115 says only that it returns
the word the chip presented (log entry 11). The memory's canonical form, which StepKeepsInvariant keeps, is the model's; a short
buffer is ShortBufferIsRefused.) -/
def Obligations.ReadPayloadStoresInOrder : Prop :=
  ∀ (b : BufRef) (size : Nat) (s : State), size ≤ b.cap → s.mem.wf = true →
    ∃ t, exec (.readPayload b size) s = .next t ∧
      (∀ i, i < size → ∀ k, k < 8 → (t.mem.read (b.addr i)).getLsbD (7 - k) = s.drawAt (8 * i + k)) ∧
      (∀ a, (a < b.addr 0 ∨ b.addr size ≤ a) → t.mem.read a = s.mem.read a) ∧
      t.wt = s.wt ++ ([.sel, .tx s.params.rRxPayloadOp] ++ (List.range size).map (fun i => .rx (t.mem.read (b.addr i))) ++ [.desel]) ∧
      t.result = none ∧ t.requests = s.requests ∧ t.params = s.params ∧ t.miso = s.miso.drop (8 * size) ∧
      t.draws = s.draws + 8 * size ∧ t.Quiescent ∧
      (s.Bitbang → SessionLines s t
        ([.sel, .tx s.params.rRxPayloadOp] ++ (List.range size).map (fun i => .rx (t.mem.read (b.addr i))) ++ [.desel])
        (36 + 41 * size) (8 + 8 * size) (8 * size) (8 + 16 * size))

/-- R161: with capacity for `size` words, write_payload sends `W_TX_PAYLOAD_OP` and then elements 0 to size-1 in order; the buffer is
not modified; 36 + 34·size actions, no samples; a buffer with less capacity is refused (the spec's inference, D14); `OP` = 0x8 (D8). -/
def Obligations.WritePayloadSendsInOrder : Prop :=
  ∀ (b : BufRef) (size : Nat) (s : State),
    (size ≤ b.cap → ∃ t, exec (.writePayload b size) s = .next t ∧
      t.wt = s.wt ++ ([.sel, .tx s.params.wTxPayloadOp] ++ (List.range size).map (fun i => .tx (s.mem.read (b.base + i))) ++ [.desel]) ∧
      t.result = none ∧ SameHost s t ∧ NoSample s t ∧ t.Quiescent ∧
      (s.Bitbang → SessionLines s t
        ([.sel, .tx s.params.wTxPayloadOp] ++ (List.range size).map (fun i => .tx (s.mem.read (b.base + i))) ++ [.desel])
        (36 + 34 * size) (8 + 8 * size) 0 (8 + 8 * size))) ∧
    (b.cap < size → exec (.writePayload b size) s = .refused .capacity) ∧
    (∀ x y, decodeHreq (hreqWord 0x8 x y) b size = .writePayload b size)

/-- R162: with capacity for 5 words, write_address_rx0 sends `W_REGISTER_BIT | RX_ADDR_P0_REG`, unmasked, and then exactly elements 0
to 4, however long the buffer is; 206 actions, 48 rising edges; a buffer with less capacity is refused (the spec's inference, D14);
`OP` = 0x9 (D8). -/
def Obligations.WriteAddressRx0SendsFive : Prop :=
  ∀ (b : BufRef) (s : State),
    (5 ≤ b.cap → ∃ t, exec (.writeAddressRx0 b) s = .next t ∧
      t.wt = s.wt ++ [.sel, .tx (s.params.wRegisterBit ||| s.params.rxAddrP0Reg), .tx (s.mem.read b.base), .tx (s.mem.read (b.base + 1)),
        .tx (s.mem.read (b.base + 2)), .tx (s.mem.read (b.base + 3)), .tx (s.mem.read (b.base + 4)), .desel] ∧
      t.result = none ∧ SameHost s t ∧ NoSample s t ∧ t.Quiescent ∧
      (s.Bitbang → SessionLines s t
        [.sel, .tx (s.params.wRegisterBit ||| s.params.rxAddrP0Reg), .tx (s.mem.read b.base), .tx (s.mem.read (b.base + 1)),
          .tx (s.mem.read (b.base + 2)), .tx (s.mem.read (b.base + 3)), .tx (s.mem.read (b.base + 4)), .desel] 206 48 0 48)) ∧
    (b.cap < 5 → exec (.writeAddressRx0 b) s = .refused .capacity) ∧
    (∀ x y n, decodeHreq (hreqWord 0x9 x y) b n = .writeAddressRx0 b)

/-- R163: write_address_tx is the same with `TX_ADDR_REG`; `OP` = 0xA. (Refusal and code are the spec's own, D14 and D8.) -/
def Obligations.WriteAddressTxSendsFive : Prop :=
  ∀ (b : BufRef) (s : State),
    (5 ≤ b.cap → ∃ t, exec (.writeAddressTx b) s = .next t ∧
      t.wt = s.wt ++ [.sel, .tx (s.params.wRegisterBit ||| s.params.txAddrReg), .tx (s.mem.read b.base), .tx (s.mem.read (b.base + 1)),
        .tx (s.mem.read (b.base + 2)), .tx (s.mem.read (b.base + 3)), .tx (s.mem.read (b.base + 4)), .desel] ∧
      t.result = none ∧ SameHost s t ∧ NoSample s t ∧ t.Quiescent ∧
      (s.Bitbang → SessionLines s t
        [.sel, .tx (s.params.wRegisterBit ||| s.params.txAddrReg), .tx (s.mem.read b.base), .tx (s.mem.read (b.base + 1)),
          .tx (s.mem.read (b.base + 2)), .tx (s.mem.read (b.base + 3)), .tx (s.mem.read (b.base + 4)), .desel] 206 48 0 48)) ∧
    (b.cap < 5 → exec (.writeAddressTx b) s = .refused .capacity) ∧
    (∀ x y n, decodeHreq (hreqWord 0xA x y) b n = .writeAddressTx b)

/-- R164: with capacity for `size` words, write_registers_bulk sends elements 0 to size-1 and no Command Byte of its own; 2 + 34·size
actions; with size 0 the session is `[Sel, Desel]` and clock and data-out are unchanged. -/
def Obligations.BulkSendsBufferOnly : Prop :=
  ∀ (b : BufRef) (size : Nat) (s : State), size ≤ b.cap →
    ∃ t, exec (.writeRegistersBulk b size) s = .next t ∧
      t.wt = s.wt ++ ([.sel] ++ (List.range size).map (fun i => .tx (s.mem.read (b.base + i))) ++ [.desel]) ∧
      t.result = none ∧ SameHost s t ∧ NoSample s t ∧ t.Quiescent ∧
      (s.Bitbang → ∃ T, t.lt = s.lt ++ T ∧
        T = traceOf ([.sel] ++ (List.range size).map (fun i => .tx (s.mem.read (b.base + i))) ++ [.desel]) ∧
        T.length = 2 + 34 * size ∧ risingEdges s.latches T = 8 * size ∧ samplesIn T = 0 ∧ settlesIn T = 8 * size ∧
        (s.latches.cs = .inactive → csTransitions s.latches T = 2) ∧
        t.latches = if size = 0 then { s.latches with cs := .inactive } else ⟨false, false, .inactive⟩)

/-- R164, corner case 2: bulk of a register write's own two words is that register write, on either bus. (The spec marks it as
derived.) -/
def Obligations.BulkOfTwoIsWriteRegister : Prop :=
  ∀ (b : BufRef) (reg value : Nat) (s t u : State), 2 ≤ b.cap → s.mem.read b.base = cmdWreg s.params (cut reg) →
    s.mem.read (b.base + 1) = cut value →
    exec (.writeRegistersBulk b 2) s = .next t → exec (.writeRegister reg value) s = .next u →
    t.wt = u.wt ∧ t.mem = u.mem ∧ (s.Bitbang → t.lt = u.lt ∧ t.latches = u.latches)

/-- R56, R195, R196: an operation whose buffer has fewer elements than it moves is refused for capacity, whatever else holds. (The
spec applies the precondition to the operations that read a buffer by its own inference, D14.) -/
def Obligations.ShortBufferIsRefused : Prop :=
  ∀ (b : BufRef) (size : Nat) (s : State),
    (b.cap < size → exec (.readPayload b size) s = .refused .capacity ∧ exec (.writePayload b size) s = .refused .capacity ∧
      exec (.writeRegistersBulk b size) s = .refused .capacity ∧ exec (.wireReadPayload b size) s = .refused .capacity ∧
      exec (.wireWritePayload b size) s = .refused .capacity ∧ exec (.wireWriteRegistersBulk b size) s = .refused .capacity) ∧
    (b.cap < 5 → exec (.writeAddressRx0 b) s = .refused .capacity ∧ exec (.writeAddressTx b) s = .refused .capacity ∧
      exec (.wireWriteAddressRx0 b) s = .refused .capacity ∧ exec (.wireWriteAddressTx b) s = .refused .capacity)

/-- R97: the four reserved operation codes are refused, in every state. (The codes and their refusal are the spec's decision D8.) -/
def Obligations.ReservedCodesAreRefused : Prop :=
  ∀ s : State, exec .reservedC s = .refused .reservedOp ∧ exec .reservedD s = .refused .reservedOp ∧
    exec .reservedE s = .refused .reservedOp ∧ exec .reservedF s = .refused .reservedOp

/-- R173, which the spec marks as derived: read_payload followed by write_payload against the payload chip, for as many words as
it holds, leaves its payload as it was. (The chip is the spec's own test double, read as log entry 19 says.) -/
def Obligations.PayloadRoundTripAgainstPay : Prop :=
  ∀ (b : BufRef) (e : Pay) (s t u : State), s.Bitbang → s.Idle → s.mem.wf = true → e.pl.length ≤ b.cap →
    exec (.readPayload b e.pl.length) s = .next t → exec (.writePayload b e.pl.length) t = .next u →
    ∃ T, u.lt = s.lt ++ T ∧
      ((pay s.params).agrees e s.latches T = true →
        (∀ i w, e.pl[i]? = some w → t.mem.read (b.addr i) = w) ∧ ((pay s.params).after e s.latches T).pl = e.pl)

/-! ### Laws of all framers -/

/-- R170, session discipline, which the spec marks as derived: every framer performs exactly one select, first, and exactly one
deselect, last, and no other chip-select action; from an inactive chip-select there are exactly 2 transitions whatever `size` is. -/
def Obligations.SessionDiscipline : Prop :=
  ∀ (i : Instr) (s t : State), i.isFramer = true → exec i s = .next t →
    ∃ W, t.wt = s.wt ++ ([.sel] ++ W ++ [.desel]) ∧ (∀ e ∈ W, e ≠ .sel ∧ e ≠ .desel) ∧
      (s.Bitbang → t.latches.cs = .inactive ∧
        ∃ T, t.lt = s.lt ++ ([.cs .active] ++ T ++ [.cs .inactive]) ∧ (∀ c, .cs c ∉ T) ∧
          (s.latches.cs = .inactive → csTransitions s.latches ([.cs .active] ++ T ++ [.cs .inactive]) = 2))

/-- R171, R33: no operation has a data-dependent branch: two runs of one operation with the same `size`, whatever the other
operands, the buffers, the latches, the draws and the chip constants, make the same primitive calls and, on the bit-bang bus, the
same actions but for the data. (R33's data-independence is marked by the spec as derived.) -/
def Obligations.ControlFlowIgnoresData : Prop :=
  ∀ (i j : Instr) (s t u v : State), i.form = j.form → exec i s = .next t → exec j u = .next v →
    ∃ W X, t.wt = s.wt ++ W ∧ v.wt = u.wt ++ X ∧ W.map Event.shape = X.map Event.shape ∧
      (s.Bitbang → u.Bitbang → ∃ T U, t.lt = s.lt ++ T ∧ v.lt = u.lt ++ U ∧ T.map Action.shape = U.map Action.shape)

/-- R101, which the spec marks as derived: a host that calls the primitives of a framer's expansion in order obtains the same word
trace, and on the bit-bang bus the same line trace and latches, with the same draws used. -/
def Obligations.FramersAreTheirExpansion : Prop :=
  ∀ (i : Instr) (s t : State), exec i s = .next t →
    ∃ u, runOps (i.expansion s) s = .next u ∧ u.wt = t.wt ∧ u.miso = t.miso ∧ u.draws = t.draws ∧
      (s.Bitbang → u.lt = t.lt ∧ u.latches = t.latches)

/-- R95, R88: what an observer reads off the lines of any completed operation started with the clock low: on data-out the words
sent, with 0x00 while a word is received; on data-in the words received; one rising and one falling edge per bit. (The observer's
sampling point is the spec's decision D26.) -/
def Obligations.LinesDecodeToWords : Prop :=
  ∀ (i : Instr) (s t : State), exec i s = .next t → s.Bitbang → s.latches.sck = false →
    ∃ T W, t.lt = s.lt ++ T ∧ t.wt = s.wt ++ W ∧
      mosiWords s.latches T = some (W.filterMap Event.outWord) ∧ misoWords T = some (W.filterMap Event.inWord) ∧
      risingEdges s.latches T = 8 * (W.filterMap Event.outWord).length ∧
      fallingEdges s.latches T = 8 * (W.filterMap Event.outWord).length

/-- R66 (3) and (4), R232: from a low clock, data-out changes only while the clock is low, and a sample is taken only while it is
high and after the settle that follows the rising edge. -/
def Obligations.DataSetupOrdering : Prop :=
  ∀ (i : Instr) (s t : State), exec i s = .next t → s.Bitbang → s.latches.sck = false →
    ∃ T, t.lt = s.lt ++ T ∧ keepsDataSetup s.latches T = true ∧ keepsSampleSetup s.latches false T = true

/-- R170, R222: every framer started from `Idle` ends in `Idle`. (Idle is the spec's decision D11.) -/
def Obligations.FramersKeepIdle : Prop :=
  ∀ (i : Instr) (s t : State), i.isFramer = true → s.Bitbang → s.Idle → exec i s = .next t → t.Idle

/-! ### The opcode table's wire rows (30_encoding.md R82 to R88) -/

/-- R84, R85, R86 with R140, R141, R142: the register rows complete in every state with the session of their framer: its Command
Byte, formed from the register address or opcode, and its data word. (That a wire row is its framer given by its first word is the
model's reading, log entry 9; the order of actions inside a word is D6's and D7's, the cut of a wide value D15's, log entry 15; in
the read row that a word's eight levels are the next eight draws, and that it uses eight, is R113's on the bit-bang bus and the
model's choice on an external bus, of which R115 says only that it returns the word the chip presented (log entry 11).) -/
def Obligations.WireRegisterRowsComplete : Prop :=
  ∀ (reg opcode : Byte) (value : Nat) (s : State),
    (∃ t, exec (.wireWriteRegister reg value) s = .next t ∧ t.result = none ∧ SameHost s t ∧ NoSample s t ∧ t.Quiescent ∧
      t.wt = s.wt ++ [.sel, .tx ((reg &&& 0x3F#8) ||| s.params.wRegisterBit), .tx (BitVec.ofNat 8 value), .desel] ∧
      (s.Bitbang → SessionLines s t
        [.sel, .tx ((reg &&& 0x3F#8) ||| s.params.wRegisterBit), .tx (BitVec.ofNat 8 value), .desel] 70 16 0 16)) ∧
    (∃ t r, exec (.wireReadRegister reg) s = .next t ∧ t.result = some r ∧ (∀ k, k < 8 → r.getLsbD (7 - k) = s.drawAt k) ∧
      SameHost s t ∧ t.miso = s.miso.drop 8 ∧ t.draws = s.draws + 8 ∧ t.Quiescent ∧
      t.wt = s.wt ++ [.sel, .tx (reg &&& s.params.readAddrMask), .rx r, .desel] ∧
      (s.Bitbang → SessionLines s t [.sel, .tx (reg &&& s.params.readAddrMask), .rx r, .desel] 77 16 8 24)) ∧
    (∃ t, exec (.wireCommand opcode) s = .next t ∧ t.result = none ∧ SameHost s t ∧ NoSample s t ∧ t.Quiescent ∧
      t.wt = s.wt ++ [.sel, .tx opcode, .desel] ∧ (s.Bitbang → SessionLines s t [.sel, .tx opcode, .desel] 36 8 0 8))

/-- R82, R86, R87 with R160 to R164: the buffer rows complete where the buffer has room, and so does the framer each names, with
the same primitive calls, result, host bytes, draws, and, on the bit-bang bus, the same actions and latches. (That a wire row is
its framer given by its first word is the model's reading, log entry 9.) -/
def Obligations.WireBufferRowsComplete : Prop :=
  ∀ (b : BufRef) (size : Nat) (s : State) (p : Instr × Instr),
    ((size ≤ b.cap ∧ p ∈ [(Instr.wireReadPayload b size, Instr.readPayload b size),
        (Instr.wireWritePayload b size, Instr.writePayload b size),
        (Instr.wireWriteRegistersBulk b size, Instr.writeRegistersBulk b size)]) ∨
      (5 ≤ b.cap ∧ p ∈ [(Instr.wireWriteAddressRx0 b, Instr.writeAddressRx0 b), (Instr.wireWriteAddressTx b, Instr.writeAddressTx b)])) →
    ∃ t u, exec p.1 s = .next t ∧ exec p.2 s = .next u ∧ t.wt = u.wt ∧ t.lt = u.lt ∧ t.result = u.result ∧ t.mem = u.mem ∧
      t.miso = u.miso ∧ t.draws = u.draws ∧ t.requests = u.requests ∧ t.params = u.params ∧ t.Quiescent ∧
      (s.Bitbang → t.latches = u.latches)

/-- R82, R83, R88: the first word on the wire of a wire row's session is the Command Byte that encodes it (the bulk row has none).
(Which row a Command Byte stands for is the model's choice, log entries 9 and 10.) -/
def Obligations.WireRowSendsItsOwnCode : Prop :=
  ∀ (i : Instr) (s t : State) (w : Byte), i.wellFormed s.params = true → (encode s.params i).code = .wire (some w) →
    exec i s = .next t → s.Bitbang → s.latches.sck = false →
    ∃ T rest, t.lt = s.lt ++ T ∧ mosiWords s.latches T = some (w :: rest)

/-! ### Encoding (30_encoding.md) -/

/-- R91 to R93, R84 to R87: decoding the encoding of any well-formed instruction gives it back, under every choice of the
constants and with every operand. (HREQ is the spec's decision D8; the order in which overlapping Command Bytes are read is the
model's, log entry 10.) -/
def Obligations.DecodeEncodeRoundTrip : Prop :=
  ∀ (p : Params) (i : Instr), i.wellFormed p = true → decode p (encode p i) = i

/-- R83 to R87: reading a Command Byte and forming it again gives the same byte, under every choice of the constants. (The order
in which overlapping Command Bytes are read is the model's, log entry 10.) -/
def Obligations.EncodeDecodeWireByte : Prop :=
  ∀ (p : Params) (w : Byte) (value size : Nat) (buf : BufRef), (encode p (decodeWire p w value buf size)).code = .wire (some w)

/-- R92, R93, R97: the operation each `OP` selects and the operands it takes; the encoding is the spec's own (D8). -/
def Obligations.OperationCodeTable : Prop :=
  ∀ (a b : Nat) (buf : BufRef) (size : Nat),
    (List.range 16).map (fun op => decodeHreq (hreqWord op a b) buf size) =
      [.select, .deselect, .sendByte (a % 256), .sendZeroReceiveByte, .writeRegister (a % 256) (b % 256), .readRegister (a % 256),
        .command (a % 256), .readPayload buf size, .writePayload buf size, .writeAddressRx0 buf, .writeAddressTx buf,
        .writeRegistersBulk buf size, .reservedC, .reservedD, .reservedE, .reservedF]

/-- R91, R93: an operation is selected by `OP` alone and a field it does not use is ignored: changing `A` and `B` never changes
the operation, changing `B` changes nothing but in a write_register, and changing `A` nothing but where `A` is an operand. (HREQ
is the spec's decision D8.) -/
def Obligations.HreqUnusedFieldsIgnored : Prop :=
  ∀ (op a b c d : Nat) (buf : BufRef) (size : Nat), op < 16 →
    (decodeHreq (hreqWord op a b) buf size).form = (decodeHreq (hreqWord op c d) buf size).form ∧
    (op ≠ 4 → decodeHreq (hreqWord op a b) buf size = decodeHreq (hreqWord op a d) buf size) ∧
    (op ∉ [2, 4, 5, 6] → decodeHreq (hreqWord op a b) buf size = decodeHreq (hreqWord op c d) buf size)

/-- The Command Byte formats R84 to R87: the two register formats bit by bit, in general and under `REF`; R86's (unchanged) and R87's
(not masked: C8), with the four bytes they give under `REF`. (R12 marks every value of `REF` as general knowledge.) -/
def Obligations.CommandByteFormats : Prop :=
  ∀ (p : Params) (reg c : Byte) (i : Nat), i < 8 →
    (cmdWreg p reg).getLsbD i = ((decide (i < 6) && reg.getLsbD i) || p.wRegisterBit.getLsbD i) ∧
    (cmdRreg p reg).getLsbD i = (reg.getLsbD i && p.readAddrMask.getLsbD i) ∧
    cmdRaw c = c ∧
    (cmdWaddr p c).getLsbD i = (p.wRegisterBit.getLsbD i || c.getLsbD i) ∧
    (cmdWreg p.toRef reg).getLsbD i = (decide (i = 5) || (decide (i < 5) && reg.getLsbD i)) ∧
    (cmdRreg p.toRef reg).getLsbD i = (decide (i < 5) && reg.getLsbD i) ∧
    cmdRaw p.toRef.rRxPayloadOp = 0x61#8 ∧ cmdRaw p.toRef.wTxPayloadOp = 0xA0#8 ∧
    cmdWaddr p.toRef p.toRef.rxAddrP0Reg = 0x2A#8 ∧ cmdWaddr p.toRef p.toRef.txAddrReg = 0x30#8

/-- R91, R92, R97 and the vectors of 95_test_vectors.md 3.5 and 3.2: words written out from the encodings decode to the instructions
they stand for: four operations, one with its ignored field set, the four reserved codes, a word of more than 20 bits, which is
refused, and three Command Bytes. (The layout in bytes and the side operands of a table word are the model's, log entry 8; what a
Command Byte means as an instruction and the order in which the formats are read, log entries 9 and 10.) -/
def Obligations.WrittenOutWordsDecode : Prop :=
  decodeTableWord 24 0x00000 = some .select ∧ decodeTableWord 24 0x10000 = some .deselect ∧
  decodeTableWord 24 0x2A5FF = some (.sendByte 0xA5) ∧ decodeTableWord 24 0x47FA5 = some (.writeRegister 0x7F 0xA5) ∧
  decodeTableWord 24 0xC0000 = some .reservedC ∧ decodeTableWord 24 0xD1234 = some .reservedD ∧
  decodeTableWord 24 0xE0000 = some .reservedE ∧ decodeTableWord 24 0xFFFFF = some .reservedF ∧
  decodeTableWord 24 0x100000 = none ∧
  decodeTableWord 8 0x25 = some (.wireWriteRegister 0x05#8 0) ∧ decodeTableWord 8 0x07 = some (.wireReadRegister 0x07#8) ∧
  decodeTableWord 8 0xE1 = some (.wireCommand 0xE1#8)

/-- R89: a host operand wider than 8 bits is cut to its low 8 bits before any mask or OR. (D15.) -/
def Obligations.WideOperandsAreCut : Prop :=
  ∀ (x y : Nat) (s t u : State),
    (exec (.sendByte x) s = .next t → exec (.sendByte (x % 256)) s = .next u → t.wt = u.wt ∧ t.lt = u.lt) ∧
    (exec (.writeRegister x y) s = .next t → exec (.writeRegister (x % 256) (y % 256)) s = .next u → t.wt = u.wt ∧ t.lt = u.lt) ∧
    (exec (.readRegister x) s = .next t → exec (.readRegister (x % 256)) s = .next u → t.wt = u.wt ∧ t.lt = u.lt) ∧
    (exec (.command x) s = .next t → exec (.command (x % 256)) s = .next u → t.wt = u.wt ∧ t.lt = u.lt)

/-- R90, which the spec marks as derived: the reference configuration satisfies `K0`, `K1` and `K2`; with the read mask 0x3F in it
`K1` fails, and read_register(0x25) sends 0x25, which the echo chip takes for a write of register 5. -/
def Obligations.ReferenceIsConsistent : Prop :=
  ∀ p : Params, p.toRef.K0 ∧ p.toRef.K1 ∧ p.toRef.K2 ∧ ¬ ({ p.toRef with readAddrMask := 0x3F#8 } : Params).K1 ∧
    cmdRreg { p.toRef with readAddrMask := 0x3F#8 } 0x25#8 = 0x25#8 ∧ echoWrites p.toRef 0x25#8 = true ∧
    0x25#8 &&& ~~~p.toRef.wRegisterBit = 5#8

/-! ### The machine -/

/-- R26, R66: with a request pending, a step is that request's instruction, decoded under the state's constants and run on the
state with the request taken; it does so for every request, well formed or not. (That a step is one request run to completion is
the model's choice, log entries 1 and 7.) -/
def Obligations.StepRunsDecodedRequest : Prop :=
  ∀ (s : State) (r : Request) (rest : List Request), s.requests = r :: rest →
    step s = exec (decode s.params r) { s with requests := rest }

/-- R205: with no request the block does nothing and holds its state. (That the machine may step with no request is the model's
choice, log entry 7.) -/
def Obligations.StepWithoutRequestHolds : Prop :=
  ∀ s : State, s.requests = [] → step s = .next s

/-- R190: every operation the spec gives a meaning completes, from every state and for every operand; nothing faults; a request is
refused exactly where it is a reserved code or its buffer is too small, by the reason the spec names. (The refusals are the spec's
decision D20.) -/
def Obligations.EveryRequestIsRunOrRefused : Prop :=
  ∀ (i : Instr) (s : State),
    (i.accepted = true ∧ ∃ t, exec i s = .next t) ∨
    (i.isReserved = true ∧ exec i s = .refused .reservedOp) ∨
    (∃ b n, i.moves = some (b, n) ∧ b.cap < n ∧ exec i s = .refused .capacity)

/-- R45, R220: after reset no operation is in progress, no operation-local register exists, both traces are empty, no request is
pending and the constants have their build-time values. (The latches' values are the model's own: no clause here rests on them.) -/
def Obligations.ResetState : Prop :=
  State.reset.Quiescent ∧ State.reset.lt = [] ∧ State.reset.wt = [] ∧ State.reset.requests = [] ∧
    State.reset.params = Config.build ∧ State.reset.params.busImpl = .bitbang

/-- R222: the launch procedure establishes `Idle` from any latches, leaves data-out alone unless asked, and records nothing. (The
order of the drives is the spec's decision D12.) -/
def Obligations.LaunchEstablishesIdle : Prop :=
  ∀ (mosiToo : Bool) (s : State), (s.launch mosiToo).Idle ∧
    (s.launch mosiToo).latches.mosi = (if mosiToo then false else s.latches.mosi) ∧
    (s.launch mosiToo).lt = s.lt ∧ (s.launch mosiToo).wt = s.wt ∧ (s.launch mosiToo).mem = s.mem

/-- The invariant of StepKeepsInvariant holds at reset. (Model's choice in it: the clock latch at reset, log entry 3, and the empty
memory, log entry 6.) -/
def Obligations.InvariantAtReset : Prop := State.reset.Inv

/-- The invariants of StepKeepsTracesAgree and StepKeepsLatchesReplayed hold at reset, where both traces are empty (R45). -/
def Obligations.TraceInvariantsAtReset : Prop :=
  State.reset.Bitbang ∧ State.reset.TracesAgree ∧ State.reset.ReplaysFrom State.reset.latches

/-- R20, R30, R54, R122: from any state with a canonical memory, no operation in progress and (on the bit-bang bus) the clock low, a
step leads to such a state. -/
def Obligations.StepKeepsInvariant : Prop :=
  ∀ s t : State, s.Inv → step s = .next t → t.Inv

/-- R41: at every step `LT` stays what `WT` gives when each primitive call is replaced by its action list. -/
def Obligations.StepKeepsTracesAgree : Prop :=
  ∀ s t : State, s.Bitbang → s.TracesAgree → step s = .next t → t.Bitbang ∧ t.TracesAgree

/-- R21 to R24: at every step the latches stay what replaying `LT` from the latches at launch gives: a latch holds what was last
driven on its line, and nothing but a drive changes it. -/
def Obligations.StepKeepsLatchesReplayed : Prop :=
  ∀ (l : Latches) (s t : State), s.Bitbang → s.ReplaysFrom l → step s = .next t → t.ReplaysFrom l

/-- R36: the build-time constants are read-only, and the traces only grow. -/
def Obligations.StepKeepsConstantsExtendsTraces : Prop :=
  ∀ s t : State, step s = .next t → t.params = s.params ∧ s.wt <+: t.wt ∧ s.lt <+: t.lt

/-- R55, R54: an operation that is not read_payload leaves every byte of the host as it was; none touches the host's coming requests
or the constants; an operation uses eight draws for each word it receives and none where it receives nothing. (Coming requests and
draws in the state are the model's choice, log entries 4 and 7; on an external bus so is that a word received uses eight draws, log
entry 11.) -/
def Obligations.NonStoringFrame : Prop :=
  ∀ (i : Instr) (s t : State), exec i s = .next t →
    t.requests = s.requests ∧ t.params = s.params ∧ t.Quiescent ∧
    t.miso = s.miso.drop (8 * i.received) ∧ t.draws = s.draws + 8 * i.received ∧
    (i.stores = none → ∀ a, t.mem.read a = s.mem.read a)

/-- R54, R55: an operation that stores, stores into the first `n` elements of its buffer and nowhere else, keeps the memory's
canonical form, and element i then holds the i-th word received. (Buffers as windows of one host memory are the model's choice, log
entry 5; that a word's eight levels are the next eight draws, and that it uses eight, is R113's on the bit-bang bus and the model's
choice on an external bus, of which R115 says only that it returns the word the chip presented (log entry 11).) -/
def Obligations.StoringFrame : Prop :=
  ∀ (i : Instr) (b : BufRef) (n : Nat) (s t : State), i.stores = some (b, n) → exec i s = .next t →
    (∀ a, (a < b.addr 0 ∨ b.addr n ≤ a) → t.mem.read a = s.mem.read a) ∧ (s.mem.wf = true → t.mem.wf = true) ∧
    (s.mem.wf = true → ∀ i < n, t.mem.read (b.addr i) = s.drawnWord i)

/-- R7, R41, R115: linking in the external bus changes nothing at word level: the same operation gives the same word trace,
result, buffers and use of draws. (Only the word level is promised, the spec's decision D28; that a word uses eight draws is the
model's, log entry 11.) -/
def Obligations.ExternalBusSameWords : Prop :=
  ∀ (i : Instr) (s t : State), exec i s = .next t →
    ∃ u, exec i { s with params := { s.params with busImpl := .external } } = .next u ∧
      u.wt = t.wt ∧ u.result = t.result ∧ u.mem = t.mem ∧ u.miso = t.miso ∧ u.draws = t.draws ∧ u.requests = t.requests

/-- R114: a settle has no effect but its own entry in `LT`: erasing every settle from what an operation performed changes neither
the waveform, nor the latches it leaves, nor what was sampled. (The spec's decision D17.) -/
def Obligations.SettlesCanBeErased : Prop :=
  ∀ (i : Instr) (s t : State), exec i s = .next t → s.Bitbang →
    ∃ T, t.lt = s.lt ++ T ∧
      waveform s.latches (T.filter (fun a => a ≠ .settle)) = waveform s.latches T ∧
      replay s.latches (T.filter (fun a => a ≠ .settle)) = t.latches ∧
      misoBits (T.filter (fun a => a ≠ .settle)) = misoBits T
end

