-- ==== Sys2Proof/Laws/State.lean ====
section
/-! SUPPORT. One lemma per field of State per named update, so that no proof unfolds a record update. -/

namespace Sys2Proof.Machine

/-! ### State.act -/

@[simp] theorem act_latches (s : State) (a : Action) : (State.act s a).latches = s.latches.apply a := rfl
@[simp] theorem act_seq (s : State) (a : Action) : (State.act s a).seq = s.seq.advance := rfl
@[simp] theorem act_txv (s : State) (a : Action) : (State.act s a).txv = s.txv := rfl
@[simp] theorem act_acc (s : State) (a : Action) : (State.act s a).acc = s.acc := rfl
@[simp] theorem act_idx (s : State) (a : Action) : (State.act s a).idx = s.idx := rfl
@[simp] theorem act_cnt (s : State) (a : Action) : (State.act s a).cnt = s.cnt := rfl
@[simp] theorem act_cmd (s : State) (a : Action) : (State.act s a).cmd = s.cmd := rfl
@[simp] theorem act_lt (s : State) (a : Action) : (State.act s a).lt = s.lt ++ [a] := rfl
@[simp] theorem act_wt (s : State) (a : Action) : (State.act s a).wt = s.wt := rfl
@[simp] theorem act_miso (s : State) (a : Action) : (State.act s a).miso = s.miso := rfl
@[simp] theorem act_draws (s : State) (a : Action) : (State.act s a).draws = s.draws := rfl
@[simp] theorem act_mem (s : State) (a : Action) : (State.act s a).mem = s.mem := rfl
@[simp] theorem act_requests (s : State) (a : Action) : (State.act s a).requests = s.requests := rfl
@[simp] theorem act_result (s : State) (a : Action) : (State.act s a).result = s.result := rfl
@[simp] theorem act_params (s : State) (a : Action) : (State.act s a).params = s.params := rfl

/-! ### State.note -/

@[simp] theorem note_latches (s : State) (e : Event) : (State.note s e).latches = s.latches := rfl
@[simp] theorem note_seq (s : State) (e : Event) : (State.note s e).seq = s.seq := rfl
@[simp] theorem note_txv (s : State) (e : Event) : (State.note s e).txv = s.txv := rfl
@[simp] theorem note_acc (s : State) (e : Event) : (State.note s e).acc = s.acc := rfl
@[simp] theorem note_idx (s : State) (e : Event) : (State.note s e).idx = s.idx := rfl
@[simp] theorem note_cnt (s : State) (e : Event) : (State.note s e).cnt = s.cnt := rfl
@[simp] theorem note_cmd (s : State) (e : Event) : (State.note s e).cmd = s.cmd := rfl
@[simp] theorem note_lt (s : State) (e : Event) : (State.note s e).lt = s.lt := rfl
@[simp] theorem note_wt (s : State) (e : Event) : (State.note s e).wt = s.wt ++ [e] := rfl
@[simp] theorem note_miso (s : State) (e : Event) : (State.note s e).miso = s.miso := rfl
@[simp] theorem note_draws (s : State) (e : Event) : (State.note s e).draws = s.draws := rfl
@[simp] theorem note_mem (s : State) (e : Event) : (State.note s e).mem = s.mem := rfl
@[simp] theorem note_requests (s : State) (e : Event) : (State.note s e).requests = s.requests := rfl
@[simp] theorem note_result (s : State) (e : Event) : (State.note s e).result = s.result := rfl
@[simp] theorem note_params (s : State) (e : Event) : (State.note s e).params = s.params := rfl

/-! ### State.takeDraws -/

@[simp] theorem takeDraws_latches (s : State) (n : Nat) : (State.takeDraws s n).latches = s.latches := rfl
@[simp] theorem takeDraws_seq (s : State) (n : Nat) : (State.takeDraws s n).seq = s.seq := rfl
@[simp] theorem takeDraws_txv (s : State) (n : Nat) : (State.takeDraws s n).txv = s.txv := rfl
@[simp] theorem takeDraws_acc (s : State) (n : Nat) : (State.takeDraws s n).acc = s.acc := rfl
@[simp] theorem takeDraws_idx (s : State) (n : Nat) : (State.takeDraws s n).idx = s.idx := rfl
@[simp] theorem takeDraws_cnt (s : State) (n : Nat) : (State.takeDraws s n).cnt = s.cnt := rfl
@[simp] theorem takeDraws_cmd (s : State) (n : Nat) : (State.takeDraws s n).cmd = s.cmd := rfl
@[simp] theorem takeDraws_lt (s : State) (n : Nat) : (State.takeDraws s n).lt = s.lt := rfl
@[simp] theorem takeDraws_wt (s : State) (n : Nat) : (State.takeDraws s n).wt = s.wt := rfl
@[simp] theorem takeDraws_miso (s : State) (n : Nat) : (State.takeDraws s n).miso = s.miso.drop n := rfl
@[simp] theorem takeDraws_draws (s : State) (n : Nat) : (State.takeDraws s n).draws = s.draws + n := rfl
@[simp] theorem takeDraws_mem (s : State) (n : Nat) : (State.takeDraws s n).mem = s.mem := rfl
@[simp] theorem takeDraws_requests (s : State) (n : Nat) : (State.takeDraws s n).requests = s.requests := rfl
@[simp] theorem takeDraws_result (s : State) (n : Nat) : (State.takeDraws s n).result = s.result := rfl
@[simp] theorem takeDraws_params (s : State) (n : Nat) : (State.takeDraws s n).params = s.params := rfl

/-! ### State.bufWrite -/

@[simp] theorem bufWrite_latches (s : State) (b : BufRef) (i : Nat) (v : Byte) : (State.bufWrite s b i v).latches = s.latches := rfl
@[simp] theorem bufWrite_seq (s : State) (b : BufRef) (i : Nat) (v : Byte) : (State.bufWrite s b i v).seq = s.seq := rfl
@[simp] theorem bufWrite_txv (s : State) (b : BufRef) (i : Nat) (v : Byte) : (State.bufWrite s b i v).txv = s.txv := rfl
@[simp] theorem bufWrite_acc (s : State) (b : BufRef) (i : Nat) (v : Byte) : (State.bufWrite s b i v).acc = s.acc := rfl
@[simp] theorem bufWrite_idx (s : State) (b : BufRef) (i : Nat) (v : Byte) : (State.bufWrite s b i v).idx = s.idx := rfl
@[simp] theorem bufWrite_cnt (s : State) (b : BufRef) (i : Nat) (v : Byte) : (State.bufWrite s b i v).cnt = s.cnt := rfl
@[simp] theorem bufWrite_cmd (s : State) (b : BufRef) (i : Nat) (v : Byte) : (State.bufWrite s b i v).cmd = s.cmd := rfl
@[simp] theorem bufWrite_lt (s : State) (b : BufRef) (i : Nat) (v : Byte) : (State.bufWrite s b i v).lt = s.lt := rfl
@[simp] theorem bufWrite_wt (s : State) (b : BufRef) (i : Nat) (v : Byte) : (State.bufWrite s b i v).wt = s.wt := rfl
@[simp] theorem bufWrite_miso (s : State) (b : BufRef) (i : Nat) (v : Byte) : (State.bufWrite s b i v).miso = s.miso := rfl
@[simp] theorem bufWrite_draws (s : State) (b : BufRef) (i : Nat) (v : Byte) : (State.bufWrite s b i v).draws = s.draws := rfl
@[simp] theorem bufWrite_mem (s : State) (b : BufRef) (i : Nat) (v : Byte) : (State.bufWrite s b i v).mem = s.mem.write (b.addr i) v := rfl
@[simp] theorem bufWrite_requests (s : State) (b : BufRef) (i : Nat) (v : Byte) : (State.bufWrite s b i v).requests = s.requests := rfl
@[simp] theorem bufWrite_result (s : State) (b : BufRef) (i : Nat) (v : Byte) : (State.bufWrite s b i v).result = s.result := rfl
@[simp] theorem bufWrite_params (s : State) (b : BufRef) (i : Nat) (v : Byte) : (State.bufWrite s b i v).params = s.params := rfl

/-! ### State.setTxv -/

@[simp] theorem setTxv_latches (s : State) (v : Byte) : (State.setTxv s v).latches = s.latches := rfl
@[simp] theorem setTxv_seq (s : State) (v : Byte) : (State.setTxv s v).seq = s.seq := rfl
@[simp] theorem setTxv_txv (s : State) (v : Byte) : (State.setTxv s v).txv = some v := rfl
@[simp] theorem setTxv_acc (s : State) (v : Byte) : (State.setTxv s v).acc = s.acc := rfl
@[simp] theorem setTxv_idx (s : State) (v : Byte) : (State.setTxv s v).idx = s.idx := rfl
@[simp] theorem setTxv_cnt (s : State) (v : Byte) : (State.setTxv s v).cnt = s.cnt := rfl
@[simp] theorem setTxv_cmd (s : State) (v : Byte) : (State.setTxv s v).cmd = s.cmd := rfl
@[simp] theorem setTxv_lt (s : State) (v : Byte) : (State.setTxv s v).lt = s.lt := rfl
@[simp] theorem setTxv_wt (s : State) (v : Byte) : (State.setTxv s v).wt = s.wt := rfl
@[simp] theorem setTxv_miso (s : State) (v : Byte) : (State.setTxv s v).miso = s.miso := rfl
@[simp] theorem setTxv_draws (s : State) (v : Byte) : (State.setTxv s v).draws = s.draws := rfl
@[simp] theorem setTxv_mem (s : State) (v : Byte) : (State.setTxv s v).mem = s.mem := rfl
@[simp] theorem setTxv_requests (s : State) (v : Byte) : (State.setTxv s v).requests = s.requests := rfl
@[simp] theorem setTxv_result (s : State) (v : Byte) : (State.setTxv s v).result = s.result := rfl
@[simp] theorem setTxv_params (s : State) (v : Byte) : (State.setTxv s v).params = s.params := rfl

/-! ### State.setAcc -/

@[simp] theorem setAcc_latches (s : State) (v : Byte) : (State.setAcc s v).latches = s.latches := rfl
@[simp] theorem setAcc_seq (s : State) (v : Byte) : (State.setAcc s v).seq = s.seq := rfl
@[simp] theorem setAcc_txv (s : State) (v : Byte) : (State.setAcc s v).txv = s.txv := rfl
@[simp] theorem setAcc_acc (s : State) (v : Byte) : (State.setAcc s v).acc = some v := rfl
@[simp] theorem setAcc_idx (s : State) (v : Byte) : (State.setAcc s v).idx = s.idx := rfl
@[simp] theorem setAcc_cnt (s : State) (v : Byte) : (State.setAcc s v).cnt = s.cnt := rfl
@[simp] theorem setAcc_cmd (s : State) (v : Byte) : (State.setAcc s v).cmd = s.cmd := rfl
@[simp] theorem setAcc_lt (s : State) (v : Byte) : (State.setAcc s v).lt = s.lt := rfl
@[simp] theorem setAcc_wt (s : State) (v : Byte) : (State.setAcc s v).wt = s.wt := rfl
@[simp] theorem setAcc_miso (s : State) (v : Byte) : (State.setAcc s v).miso = s.miso := rfl
@[simp] theorem setAcc_draws (s : State) (v : Byte) : (State.setAcc s v).draws = s.draws := rfl
@[simp] theorem setAcc_mem (s : State) (v : Byte) : (State.setAcc s v).mem = s.mem := rfl
@[simp] theorem setAcc_requests (s : State) (v : Byte) : (State.setAcc s v).requests = s.requests := rfl
@[simp] theorem setAcc_result (s : State) (v : Byte) : (State.setAcc s v).result = s.result := rfl
@[simp] theorem setAcc_params (s : State) (v : Byte) : (State.setAcc s v).params = s.params := rfl

/-! ### State.setIdx -/

@[simp] theorem setIdx_latches (s : State) (k : Nat) : (State.setIdx s k).latches = s.latches := rfl
@[simp] theorem setIdx_seq (s : State) (k : Nat) : (State.setIdx s k).seq = s.seq := rfl
@[simp] theorem setIdx_txv (s : State) (k : Nat) : (State.setIdx s k).txv = s.txv := rfl
@[simp] theorem setIdx_acc (s : State) (k : Nat) : (State.setIdx s k).acc = s.acc := rfl
@[simp] theorem setIdx_idx (s : State) (k : Nat) : (State.setIdx s k).idx = some (BitVec.ofNat 3 k) := rfl
@[simp] theorem setIdx_cnt (s : State) (k : Nat) : (State.setIdx s k).cnt = s.cnt := rfl
@[simp] theorem setIdx_cmd (s : State) (k : Nat) : (State.setIdx s k).cmd = s.cmd := rfl
@[simp] theorem setIdx_lt (s : State) (k : Nat) : (State.setIdx s k).lt = s.lt := rfl
@[simp] theorem setIdx_wt (s : State) (k : Nat) : (State.setIdx s k).wt = s.wt := rfl
@[simp] theorem setIdx_miso (s : State) (k : Nat) : (State.setIdx s k).miso = s.miso := rfl
@[simp] theorem setIdx_draws (s : State) (k : Nat) : (State.setIdx s k).draws = s.draws := rfl
@[simp] theorem setIdx_mem (s : State) (k : Nat) : (State.setIdx s k).mem = s.mem := rfl
@[simp] theorem setIdx_requests (s : State) (k : Nat) : (State.setIdx s k).requests = s.requests := rfl
@[simp] theorem setIdx_result (s : State) (k : Nat) : (State.setIdx s k).result = s.result := rfl
@[simp] theorem setIdx_params (s : State) (k : Nat) : (State.setIdx s k).params = s.params := rfl

/-! ### State.setCnt -/

@[simp] theorem setCnt_latches (s : State) (i : Nat) : (State.setCnt s i).latches = s.latches := rfl
@[simp] theorem setCnt_seq (s : State) (i : Nat) : (State.setCnt s i).seq = s.seq := rfl
@[simp] theorem setCnt_txv (s : State) (i : Nat) : (State.setCnt s i).txv = s.txv := rfl
@[simp] theorem setCnt_acc (s : State) (i : Nat) : (State.setCnt s i).acc = s.acc := rfl
@[simp] theorem setCnt_idx (s : State) (i : Nat) : (State.setCnt s i).idx = s.idx := rfl
@[simp] theorem setCnt_cnt (s : State) (i : Nat) : (State.setCnt s i).cnt = some i := rfl
@[simp] theorem setCnt_cmd (s : State) (i : Nat) : (State.setCnt s i).cmd = s.cmd := rfl
@[simp] theorem setCnt_lt (s : State) (i : Nat) : (State.setCnt s i).lt = s.lt := rfl
@[simp] theorem setCnt_wt (s : State) (i : Nat) : (State.setCnt s i).wt = s.wt := rfl
@[simp] theorem setCnt_miso (s : State) (i : Nat) : (State.setCnt s i).miso = s.miso := rfl
@[simp] theorem setCnt_draws (s : State) (i : Nat) : (State.setCnt s i).draws = s.draws := rfl
@[simp] theorem setCnt_mem (s : State) (i : Nat) : (State.setCnt s i).mem = s.mem := rfl
@[simp] theorem setCnt_requests (s : State) (i : Nat) : (State.setCnt s i).requests = s.requests := rfl
@[simp] theorem setCnt_result (s : State) (i : Nat) : (State.setCnt s i).result = s.result := rfl
@[simp] theorem setCnt_params (s : State) (i : Nat) : (State.setCnt s i).params = s.params := rfl

/-! ### State.setCmd -/

@[simp] theorem setCmd_latches (s : State) (v : Byte) : (State.setCmd s v).latches = s.latches := rfl
@[simp] theorem setCmd_seq (s : State) (v : Byte) : (State.setCmd s v).seq = s.seq := rfl
@[simp] theorem setCmd_txv (s : State) (v : Byte) : (State.setCmd s v).txv = s.txv := rfl
@[simp] theorem setCmd_acc (s : State) (v : Byte) : (State.setCmd s v).acc = s.acc := rfl
@[simp] theorem setCmd_idx (s : State) (v : Byte) : (State.setCmd s v).idx = s.idx := rfl
@[simp] theorem setCmd_cnt (s : State) (v : Byte) : (State.setCmd s v).cnt = s.cnt := rfl
@[simp] theorem setCmd_cmd (s : State) (v : Byte) : (State.setCmd s v).cmd = some v := rfl
@[simp] theorem setCmd_lt (s : State) (v : Byte) : (State.setCmd s v).lt = s.lt := rfl
@[simp] theorem setCmd_wt (s : State) (v : Byte) : (State.setCmd s v).wt = s.wt := rfl
@[simp] theorem setCmd_miso (s : State) (v : Byte) : (State.setCmd s v).miso = s.miso := rfl
@[simp] theorem setCmd_draws (s : State) (v : Byte) : (State.setCmd s v).draws = s.draws := rfl
@[simp] theorem setCmd_mem (s : State) (v : Byte) : (State.setCmd s v).mem = s.mem := rfl
@[simp] theorem setCmd_requests (s : State) (v : Byte) : (State.setCmd s v).requests = s.requests := rfl
@[simp] theorem setCmd_result (s : State) (v : Byte) : (State.setCmd s v).result = s.result := rfl
@[simp] theorem setCmd_params (s : State) (v : Byte) : (State.setCmd s v).params = s.params := rfl

/-! ### State.endSend -/

@[simp] theorem endSend_latches (s : State) : (State.endSend s).latches = s.latches := rfl
@[simp] theorem endSend_seq (s : State) : (State.endSend s).seq = s.seq := rfl
@[simp] theorem endSend_txv (s : State) : (State.endSend s).txv = none := rfl
@[simp] theorem endSend_acc (s : State) : (State.endSend s).acc = s.acc := rfl
@[simp] theorem endSend_idx (s : State) : (State.endSend s).idx = none := rfl
@[simp] theorem endSend_cnt (s : State) : (State.endSend s).cnt = s.cnt := rfl
@[simp] theorem endSend_cmd (s : State) : (State.endSend s).cmd = s.cmd := rfl
@[simp] theorem endSend_lt (s : State) : (State.endSend s).lt = s.lt := rfl
@[simp] theorem endSend_wt (s : State) : (State.endSend s).wt = s.wt := rfl
@[simp] theorem endSend_miso (s : State) : (State.endSend s).miso = s.miso := rfl
@[simp] theorem endSend_draws (s : State) : (State.endSend s).draws = s.draws := rfl
@[simp] theorem endSend_mem (s : State) : (State.endSend s).mem = s.mem := rfl
@[simp] theorem endSend_requests (s : State) : (State.endSend s).requests = s.requests := rfl
@[simp] theorem endSend_result (s : State) : (State.endSend s).result = s.result := rfl
@[simp] theorem endSend_params (s : State) : (State.endSend s).params = s.params := rfl

/-! ### State.endReceive -/

@[simp] theorem endReceive_latches (s : State) : (State.endReceive s).latches = s.latches := rfl
@[simp] theorem endReceive_seq (s : State) : (State.endReceive s).seq = s.seq := rfl
@[simp] theorem endReceive_txv (s : State) : (State.endReceive s).txv = s.txv := rfl
@[simp] theorem endReceive_acc (s : State) : (State.endReceive s).acc = none := rfl
@[simp] theorem endReceive_idx (s : State) : (State.endReceive s).idx = none := rfl
@[simp] theorem endReceive_cnt (s : State) : (State.endReceive s).cnt = s.cnt := rfl
@[simp] theorem endReceive_cmd (s : State) : (State.endReceive s).cmd = s.cmd := rfl
@[simp] theorem endReceive_lt (s : State) : (State.endReceive s).lt = s.lt := rfl
@[simp] theorem endReceive_wt (s : State) : (State.endReceive s).wt = s.wt := rfl
@[simp] theorem endReceive_miso (s : State) : (State.endReceive s).miso = s.miso := rfl
@[simp] theorem endReceive_draws (s : State) : (State.endReceive s).draws = s.draws := rfl
@[simp] theorem endReceive_mem (s : State) : (State.endReceive s).mem = s.mem := rfl
@[simp] theorem endReceive_requests (s : State) : (State.endReceive s).requests = s.requests := rfl
@[simp] theorem endReceive_result (s : State) : (State.endReceive s).result = s.result := rfl
@[simp] theorem endReceive_params (s : State) : (State.endReceive s).params = s.params := rfl

/-! ### State.externalLines -/

@[simp] theorem externalLines_latches (s : State) : (State.externalLines s).latches = ⟨Config.externalSck s.wt.length, Config.externalMosi s.wt.length, Config.externalCs s.wt.length⟩ := rfl
@[simp] theorem externalLines_seq (s : State) : (State.externalLines s).seq = s.seq := rfl
@[simp] theorem externalLines_txv (s : State) : (State.externalLines s).txv = s.txv := rfl
@[simp] theorem externalLines_acc (s : State) : (State.externalLines s).acc = s.acc := rfl
@[simp] theorem externalLines_idx (s : State) : (State.externalLines s).idx = s.idx := rfl
@[simp] theorem externalLines_cnt (s : State) : (State.externalLines s).cnt = s.cnt := rfl
@[simp] theorem externalLines_cmd (s : State) : (State.externalLines s).cmd = s.cmd := rfl
@[simp] theorem externalLines_lt (s : State) : (State.externalLines s).lt = s.lt := rfl
@[simp] theorem externalLines_wt (s : State) : (State.externalLines s).wt = s.wt := rfl
@[simp] theorem externalLines_miso (s : State) : (State.externalLines s).miso = s.miso := rfl
@[simp] theorem externalLines_draws (s : State) : (State.externalLines s).draws = s.draws := rfl
@[simp] theorem externalLines_mem (s : State) : (State.externalLines s).mem = s.mem := rfl
@[simp] theorem externalLines_requests (s : State) : (State.externalLines s).requests = s.requests := rfl
@[simp] theorem externalLines_result (s : State) : (State.externalLines s).result = s.result := rfl
@[simp] theorem externalLines_params (s : State) : (State.externalLines s).params = s.params := rfl

/-! ### State.launch -/

@[simp] theorem launch_latches (b : Bool) (s : State) : (State.launch b s).latches = s.latches.launch b := rfl
@[simp] theorem launch_seq (b : Bool) (s : State) : (State.launch b s).seq = s.seq := rfl
@[simp] theorem launch_txv (b : Bool) (s : State) : (State.launch b s).txv = s.txv := rfl
@[simp] theorem launch_acc (b : Bool) (s : State) : (State.launch b s).acc = s.acc := rfl
@[simp] theorem launch_idx (b : Bool) (s : State) : (State.launch b s).idx = s.idx := rfl
@[simp] theorem launch_cnt (b : Bool) (s : State) : (State.launch b s).cnt = s.cnt := rfl
@[simp] theorem launch_cmd (b : Bool) (s : State) : (State.launch b s).cmd = s.cmd := rfl
@[simp] theorem launch_lt (b : Bool) (s : State) : (State.launch b s).lt = s.lt := rfl
@[simp] theorem launch_wt (b : Bool) (s : State) : (State.launch b s).wt = s.wt := rfl
@[simp] theorem launch_miso (b : Bool) (s : State) : (State.launch b s).miso = s.miso := rfl
@[simp] theorem launch_draws (b : Bool) (s : State) : (State.launch b s).draws = s.draws := rfl
@[simp] theorem launch_mem (b : Bool) (s : State) : (State.launch b s).mem = s.mem := rfl
@[simp] theorem launch_requests (b : Bool) (s : State) : (State.launch b s).requests = s.requests := rfl
@[simp] theorem launch_result (b : Bool) (s : State) : (State.launch b s).result = s.result := rfl
@[simp] theorem launch_params (b : Bool) (s : State) : (State.launch b s).params = s.params := rfl

/-! ### start -/

@[simp] theorem start_latches (op : Instr) (s : State) : (start op s).latches = s.latches := rfl
@[simp] theorem start_seq (op : Instr) (s : State) : (start op s).seq = .busy op 0 := rfl
@[simp] theorem start_txv (op : Instr) (s : State) : (start op s).txv = s.txv := rfl
@[simp] theorem start_acc (op : Instr) (s : State) : (start op s).acc = s.acc := rfl
@[simp] theorem start_idx (op : Instr) (s : State) : (start op s).idx = s.idx := rfl
@[simp] theorem start_cnt (op : Instr) (s : State) : (start op s).cnt = s.cnt := rfl
@[simp] theorem start_cmd (op : Instr) (s : State) : (start op s).cmd = s.cmd := rfl
@[simp] theorem start_lt (op : Instr) (s : State) : (start op s).lt = s.lt := rfl
@[simp] theorem start_wt (op : Instr) (s : State) : (start op s).wt = s.wt := rfl
@[simp] theorem start_miso (op : Instr) (s : State) : (start op s).miso = s.miso := rfl
@[simp] theorem start_draws (op : Instr) (s : State) : (start op s).draws = s.draws := rfl
@[simp] theorem start_mem (op : Instr) (s : State) : (start op s).mem = s.mem := rfl
@[simp] theorem start_requests (op : Instr) (s : State) : (start op s).requests = s.requests := rfl
@[simp] theorem start_result (op : Instr) (s : State) : (start op s).result = s.result := rfl
@[simp] theorem start_params (op : Instr) (s : State) : (start op s).params = s.params := rfl

/-! ### finish -/

@[simp] theorem finish_latches (r : Option Byte) (s : State) : (finish r s).latches = s.latches := rfl
@[simp] theorem finish_seq (r : Option Byte) (s : State) : (finish r s).seq = .idle := rfl
@[simp] theorem finish_txv (r : Option Byte) (s : State) : (finish r s).txv = none := rfl
@[simp] theorem finish_acc (r : Option Byte) (s : State) : (finish r s).acc = none := rfl
@[simp] theorem finish_idx (r : Option Byte) (s : State) : (finish r s).idx = none := rfl
@[simp] theorem finish_cnt (r : Option Byte) (s : State) : (finish r s).cnt = none := rfl
@[simp] theorem finish_cmd (r : Option Byte) (s : State) : (finish r s).cmd = none := rfl
@[simp] theorem finish_lt (r : Option Byte) (s : State) : (finish r s).lt = s.lt := rfl
@[simp] theorem finish_wt (r : Option Byte) (s : State) : (finish r s).wt = s.wt := rfl
@[simp] theorem finish_miso (r : Option Byte) (s : State) : (finish r s).miso = s.miso := rfl
@[simp] theorem finish_draws (r : Option Byte) (s : State) : (finish r s).draws = s.draws := rfl
@[simp] theorem finish_mem (r : Option Byte) (s : State) : (finish r s).mem = s.mem := rfl
@[simp] theorem finish_requests (r : Option Byte) (s : State) : (finish r s).requests = s.requests := rfl
@[simp] theorem finish_result (r : Option Byte) (s : State) : (finish r s).result = r := rfl
@[simp] theorem finish_params (r : Option Byte) (s : State) : (finish r s).params = s.params := rfl

end Sys2Proof.Machine
end

