-- ==== Sys2Proof/Laws/Memory.lean ====
section
/-! SUPPORT. The host's bytes: read after write, and every memory operation keeps the canonical form (20_memory.md R54, R55). -/

namespace Sys2Proof.Machine

@[simp] theorem Memory.read_nil (a : Nat) : Memory.read [] a = 0#8 := rfl

/-- A write leaves every other address as it was (R55); it needs no canonical form. -/
theorem Memory.read_write_other (m : Memory) (a b : Nat) (v : Byte) (h : b ≠ a) :
    (m.write a v).read b = m.read b := by
  induction m with
  | nil =>
    simp only [Memory.write]
    split <;> simp [Memory.read, Ne.symm h]
  | cons c m ih =>
    obtain ⟨k, w⟩ := c
    simp only [Memory.write]
    split
    · split <;> simp [Memory.read, Ne.symm h]
    · split
      · next hk => subst hk; split <;> simp [Memory.read, Ne.symm h]
      · simp only [Memory.read, ih]

/-- Below its bound a canonical memory lists nothing. -/
theorem Memory.read_of_wfAbove (m : Memory) (l a : Nat) (h : Memory.wfAbove (some l) m = true) (hl : a ≤ l) :
    m.read a = 0#8 := by
  induction m generalizing l with
  | nil => rfl
  | cons c m ih =>
    obtain ⟨k, w⟩ := c
    simp only [Memory.wfAbove, Bool.and_eq_true, decide_eq_true_eq] at h
    have hk : k ≠ a := by omega
    simp [Memory.read, hk, ih k h.2 (by omega)]

/-- A canonical memory is canonical above any lower bound of its first address. -/
theorem Memory.wfAbove_weaken (m : Memory) (lo : Option Nat) (l : Nat) (h : Memory.wfAbove (some l) m = true)
    (hl : ∀ x, lo = some x → x ≤ l) : Memory.wfAbove lo m = true := by
  cases m with
  | nil => rfl
  | cons c m =>
    obtain ⟨k, w⟩ := c
    simp only [Memory.wfAbove, Bool.and_eq_true, decide_eq_true_eq] at h ⊢
    refine ⟨⟨?_, h.1.2⟩, h.2⟩
    cases lo with
    | none => rfl
    | some x => simp only [decide_eq_true_eq]; have := hl x rfl; omega

/-- A write keeps the canonical form above any bound below the address written. -/
theorem Memory.wfAbove_write (m : Memory) (lo : Option Nat) (a : Nat) (v : Byte) (h : Memory.wfAbove lo m = true)
    (hl : ∀ x, lo = some x → x < a) : Memory.wfAbove lo (m.write a v) = true := by
  induction m generalizing lo with
  | nil =>
    simp only [Memory.write]
    split
    · rfl
    · next hv => cases lo <;> simp_all [Memory.wfAbove]
  | cons c m ih =>
    obtain ⟨k, w⟩ := c
    have h' := h
    simp only [Memory.wfAbove, Bool.and_eq_true, decide_eq_true_eq] at h
    simp only [Memory.write]
    split
    · next hak =>
      split
      · exact h'
      · next hv =>
        have ha : Memory.wfAbove (some a) ((k, w) :: m) = true := by
          simp [Memory.wfAbove, hak, h.1.2, h.2]
        cases lo <;> simp_all [Memory.wfAbove]
    · split
      · next hak hk =>
        subst hk
        split
        · exact Memory.wfAbove_weaken m lo a h.2 (fun x hx => Nat.le_of_lt (hl x hx))
        · next hv =>
          simp only [Memory.wfAbove, Bool.and_eq_true, decide_eq_true_eq]
          exact ⟨⟨h.1.1, hv⟩, h.2⟩
      · next hak hk =>
        simp only [Memory.wfAbove, Bool.and_eq_true, decide_eq_true_eq]
        exact ⟨h.1, ih (some k) h.2 (fun x hx => by cases hx; omega)⟩

/-- A write keeps the canonical form. -/
theorem Memory.wf_write (m : Memory) (a : Nat) (v : Byte) (h : m.wf = true) : (m.write a v).wf = true :=
  Memory.wfAbove_write m none a v h (fun _ hx => by cases hx)

theorem Memory.read_write_same_above (m : Memory) (lo : Option Nat) (a : Nat) (v : Byte)
    (h : Memory.wfAbove lo m = true) : (m.write a v).read a = v := by
  induction m generalizing lo with
  | nil =>
    simp only [Memory.write]
    split
    · next hv => simp [hv]
    · simp [Memory.read]
  | cons c m ih =>
    obtain ⟨k, w⟩ := c
    simp only [Memory.wfAbove, Bool.and_eq_true, decide_eq_true_eq] at h
    simp only [Memory.write]
    split
    · next hak =>
      split
      · next hv =>
        have hk : k ≠ a := by omega
        simp [Memory.read, hk, hv, Memory.read_of_wfAbove m k a h.2 (Nat.le_of_lt hak)]
      · simp [Memory.read]
    · split
      · next hk =>
        subst hk
        split
        · next hv => simp [hv, Memory.read_of_wfAbove m a a h.2 (Nat.le_refl a)]
        · simp [Memory.read]
      · next hak hk =>
        have : k ≠ a := fun e => hk e.symm
        simp [Memory.read, this, ih (some k) h.2]

/-- A read after a write to the same address gives the byte written. -/
theorem Memory.read_write_same (m : Memory) (a : Nat) (v : Byte) (h : m.wf = true) : (m.write a v).read a = v :=
  Memory.read_write_same_above m none a v h

/-- The words stored at the elements `i`, `i+1`, … of a buffer, in order. -/
def Memory.storeWords (m : Memory) (b : BufRef) : Nat → List Byte → Memory
  | _, [] => m
  | i, v :: vs => Memory.storeWords (m.write (b.addr i) v) b (i + 1) vs

theorem Memory.wf_storeWords (m : Memory) (b : BufRef) (i : Nat) (vs : List Byte) (h : m.wf = true) :
    (m.storeWords b i vs).wf = true := by
  induction vs generalizing m i with
  | nil => exact h
  | cons v vs ih => exact ih _ _ (Memory.wf_write m _ v h)

/-- An address outside the elements stored to reads as before (R55). -/
theorem Memory.read_storeWords_other (m : Memory) (b : BufRef) (i : Nat) (vs : List Byte) (a : Nat)
    (h : a < b.addr i ∨ b.addr (i + vs.length) ≤ a) : (m.storeWords b i vs).read a = m.read a := by
  induction vs generalizing m i with
  | nil => rfl
  | cons v vs ih =>
    simp only [BufRef.addr, List.length_cons] at h
    rw [Memory.storeWords, ih _ _ (by simp only [BufRef.addr]; omega),
      Memory.read_write_other _ _ _ _ (by simp only [BufRef.addr]; omega)]

/-- Each element stored to reads as the word stored there (R160). -/
theorem Memory.read_storeWords_at (m : Memory) (b : BufRef) (i : Nat) (vs : List Byte) (k : Nat) (hk : k < vs.length)
    (h : m.wf = true) : (m.storeWords b i vs).read (b.addr (i + k)) = vs[k] := by
  induction vs generalizing m i k with
  | nil => simp at hk
  | cons v vs ih =>
    rw [Memory.storeWords]
    cases k with
    | zero =>
      rw [Memory.read_storeWords_other _ _ _ _ _ (by simp only [BufRef.addr]; omega)]
      simpa using Memory.read_write_same m (b.addr i) v h
    | succ k =>
      have := ih (m.write (b.addr i) v) (i + 1) k (by simpa using hk) (Memory.wf_write m _ v h)
      simpa [Nat.add_assoc, Nat.add_comm 1 k] using this

end Sys2Proof.Machine
end

