-- ==== Sys2Proof/Laws/Ops.lean ====
section
/-! SUPPORT. What each shared operation over lines, draws and registers can do, said once. -/

namespace Sys2Proof.Machine

@[simp] theorem apply_sck (l : Latches) (v : Level) : l.apply (.sck v) = { l with sck := v } := rfl
@[simp] theorem apply_mosi (l : Latches) (v : Level) : l.apply (.mosi v) = { l with mosi := v } := rfl
@[simp] theorem apply_cs (l : Latches) (c : CsState) : l.apply (.cs c) = { l with cs := c } := rfl
@[simp] theorem apply_settle (l : Latches) : l.apply .settle = l := rfl
@[simp] theorem apply_sample (l : Latches) (b : Level) : l.apply (.sample b) = l := rfl

@[simp] theorem driveSck_eq (v : Level) (s : State) : driveSck v s = s.act (.sck v) := rfl
@[simp] theorem driveMosi_eq (v : Level) (s : State) : driveMosi v s = s.act (.mosi v) := rfl
@[simp] theorem driveCs_eq (c : CsState) (s : State) : driveCs c s = s.act (.cs c) := rfl
@[simp] theorem settle_eq (s : State) : settle s = s.act .settle := rfl
@[simp] theorem sample_fst (s : State) : (sample s).1 = s.drawAt 0 := rfl
@[simp] theorem sample_snd (s : State) : (sample s).2 = (s.takeDraws 1).act (.sample (s.drawAt 0)) := rfl

/-! ### Draws depend on State.miso and State.draws alone, buffer elements on State.mem alone -/

@[simp] theorem drawAt_act (s : State) (a : Action) (k : Nat) : (s.act a).drawAt k = s.drawAt k := rfl
@[simp] theorem drawAt_note (s : State) (e : Event) (k : Nat) : (s.note e).drawAt k = s.drawAt k := rfl
@[simp] theorem drawAt_setTxv (s : State) (v : Byte) (k : Nat) : (s.setTxv v).drawAt k = s.drawAt k := rfl
@[simp] theorem drawAt_setAcc (s : State) (v : Byte) (k : Nat) : (s.setAcc v).drawAt k = s.drawAt k := rfl
@[simp] theorem drawAt_setIdx (s : State) (i : Nat) (k : Nat) : (s.setIdx i).drawAt k = s.drawAt k := rfl
@[simp] theorem drawAt_setCnt (s : State) (i : Nat) (k : Nat) : (s.setCnt i).drawAt k = s.drawAt k := rfl
@[simp] theorem drawAt_setCmd (s : State) (v : Byte) (k : Nat) : (s.setCmd v).drawAt k = s.drawAt k := rfl
@[simp] theorem drawAt_endSend (s : State) (k : Nat) : (s.endSend).drawAt k = s.drawAt k := rfl
@[simp] theorem drawAt_endReceive (s : State) (k : Nat) : (s.endReceive).drawAt k = s.drawAt k := rfl
@[simp] theorem drawAt_externalLines (s : State) (k : Nat) : (s.externalLines).drawAt k = s.drawAt k := rfl
@[simp] theorem drawAt_start (op : Instr) (s : State) (k : Nat) : (start op s).drawAt k = s.drawAt k := rfl
@[simp] theorem drawAt_finish (r : Option Byte) (s : State) (k : Nat) : (finish r s).drawAt k = s.drawAt k := rfl
@[simp] theorem drawAt_bufWrite (s : State) (b : BufRef) (i : Nat) (v : Byte) (k : Nat) : (s.bufWrite b i v).drawAt k = s.drawAt k := rfl
@[simp] theorem bufRead_act (s : State) (a : Action) (c : BufRef) (j : Nat) : (s.act a).bufRead c j = s.bufRead c j := rfl
@[simp] theorem bufRead_note (s : State) (e : Event) (c : BufRef) (j : Nat) : (s.note e).bufRead c j = s.bufRead c j := rfl
@[simp] theorem bufRead_setTxv (s : State) (v : Byte) (c : BufRef) (j : Nat) : (s.setTxv v).bufRead c j = s.bufRead c j := rfl
@[simp] theorem bufRead_setAcc (s : State) (v : Byte) (c : BufRef) (j : Nat) : (s.setAcc v).bufRead c j = s.bufRead c j := rfl
@[simp] theorem bufRead_setIdx (s : State) (i : Nat) (c : BufRef) (j : Nat) : (s.setIdx i).bufRead c j = s.bufRead c j := rfl
@[simp] theorem bufRead_setCnt (s : State) (i : Nat) (c : BufRef) (j : Nat) : (s.setCnt i).bufRead c j = s.bufRead c j := rfl
@[simp] theorem bufRead_setCmd (s : State) (v : Byte) (c : BufRef) (j : Nat) : (s.setCmd v).bufRead c j = s.bufRead c j := rfl
@[simp] theorem bufRead_endSend (s : State) (c : BufRef) (j : Nat) : (s.endSend).bufRead c j = s.bufRead c j := rfl
@[simp] theorem bufRead_endReceive (s : State) (c : BufRef) (j : Nat) : (s.endReceive).bufRead c j = s.bufRead c j := rfl
@[simp] theorem bufRead_externalLines (s : State) (c : BufRef) (j : Nat) : (s.externalLines).bufRead c j = s.bufRead c j := rfl
@[simp] theorem bufRead_start (op : Instr) (s : State) (c : BufRef) (j : Nat) : (start op s).bufRead c j = s.bufRead c j := rfl
@[simp] theorem bufRead_finish (r : Option Byte) (s : State) (c : BufRef) (j : Nat) : (finish r s).bufRead c j = s.bufRead c j := rfl
@[simp] theorem bufRead_takeDraws (s : State) (n : Nat) (c : BufRef) (j : Nat) : (s.takeDraws n).bufRead c j = s.bufRead c j := rfl

/-- After `n` draws the `k`-th one to come was the `n + k`-th. -/
@[simp] theorem drawAt_takeDraws (s : State) (n k : Nat) : (s.takeDraws n).drawAt k = s.drawAt (n + k) := by
  simp [State.drawAt, State.takeDraws, Nat.add_assoc]

/-- Eight draws are one word. -/
@[simp] theorem drawnWord_takeDraws (s : State) (i : Nat) : (s.takeDraws 8).drawnWord i = s.drawnWord (i + 1) := by
  have h : ∀ k, 8 + (8 * i + k) = 8 * (i + 1) + k := fun k => by omega
  simp [State.drawnWord, Config.wordBits, h]

/-- A state with the same coming draws has the same coming words. -/
theorem drawnWord_congr {s t : State} (h : ∀ k, s.drawAt k = t.drawAt k) (i : Nat) : s.drawnWord i = t.drawnWord i := by
  simp [State.drawnWord, h]

/-- `(TXV >> IDX) & 1` is bit `IDX` of `TXV` (40_bus_primitives.md R123). -/
theorem bitAt_eq (v : Byte) (k : Nat) (hk : k < 8) : bitAt v (BitVec.ofNat 3 k) = v.getLsbD k := by
  revert v
  interval_cases k <;> decide

end Sys2Proof.Machine
end

