-- ==== Sys2Proof/Laws/Primitives.lean ====
section
/-! SUPPORT. The four primitives, field by field: what each does on either bus, and on the bit-bang bus what it does to the lines. -/

namespace Sys2Proof.Machine

/-! ### The outgoing word (40_bus_primitives.md R112) -/

/-- One outgoing bit is the four actions of its frame, and touches `IDX` besides. -/
theorem sendBit_eq (k : Nat) (hk : k < 8) (s : State) :
    sendBit k s = (((((s.setIdx k).act (.sck false)).act (.mosi (s.readTxv.getLsbD k))).act (.sck true)).act .settle) := by
  simp [sendBit, State.readTxv, State.readIdx, bitAt_eq _ k hk]

theorem sendBitbang_lt (v : Byte) (s : State) : (sendBitbang v s).lt = s.lt ++ sendActions v := by
  simp [sendBitbang, sendBits, sendBit_eq, Config.wordBits, State.readTxv, sendActions, wireBit, List.range_succ]

theorem sendBitbang_latches (v : Byte) (s : State) : (sendBitbang v s).latches = ⟨false, false, s.latches.cs⟩ := by
  simp [sendBitbang, sendBits, sendBit_eq, Config.wordBits]

/-- Everything else an outgoing word does: nothing. -/
theorem sendBitbang_frame (v : Byte) (s : State) :
    (sendBitbang v s).acc = s.acc ∧ (sendBitbang v s).cnt = s.cnt ∧ (sendBitbang v s).cmd = s.cmd ∧
    (sendBitbang v s).wt = s.wt ∧ (sendBitbang v s).miso = s.miso ∧ (sendBitbang v s).draws = s.draws ∧
    (sendBitbang v s).mem = s.mem ∧ (sendBitbang v s).requests = s.requests ∧ (sendBitbang v s).result = s.result ∧
    (sendBitbang v s).params = s.params := by
  simp [sendBitbang, sendBits, sendBit_eq, Config.wordBits]

/-! ### The incoming word (40_bus_primitives.md R113) -/

/-- OR-ing the sample into the low bit, written without a case. -/
theorem or_draw (v : Byte) (b : Level) : (if b then v ||| 1#8 else v) = v ||| (if b then 1#8 else 0#8) := by
  cases b <;> simp

/-- One incoming bit is the five actions of its frame and one draw, and touches `IDX` and `ACC` besides. -/
theorem receiveBit_eq (k : Nat) (s : State) :
    receiveBit k s = ((((((((s.setIdx k).setAcc (s.readAcc <<< 1)).act (.sck true)).act .settle).takeDraws 1).act
      (.sample (s.drawAt 0))).setAcc ((s.readAcc <<< 1) ||| (if s.drawAt 0 then 1#8 else 0#8))).act (.sck false)).act .settle := by
  simp only [receiveBit, or_draw]
  simp [State.readAcc]
  rfl

theorem receiveBitbang_fst (s : State) : (receiveBitbang s).1 = s.drawnWord 0 := by
  simp [receiveBitbang, receiveBits, receiveBit_eq, Config.wordBits, State.readAcc, State.drawnWord, wordOfBits,
    List.range_succ]
  rfl

theorem receiveBitbang_lt (s : State) : (receiveBitbang s).2.lt = s.lt ++ receiveActions s.drawAt := by
  simp [receiveBitbang, receiveBits, receiveBit_eq, Config.wordBits, receiveActions, List.range_succ]

theorem receiveBitbang_latches (s : State) : (receiveBitbang s).2.latches = ⟨false, false, s.latches.cs⟩ := by
  simp [receiveBitbang, receiveBits, receiveBit_eq, Config.wordBits]

/-- Everything else an incoming word does: it uses eight draws. -/
theorem receiveBitbang_frame (s : State) :
    (receiveBitbang s).2.txv = s.txv ∧ (receiveBitbang s).2.cnt = s.cnt ∧ (receiveBitbang s).2.cmd = s.cmd ∧
    (receiveBitbang s).2.wt = s.wt ∧ (receiveBitbang s).2.miso = s.miso.drop 8 ∧ (receiveBitbang s).2.draws = s.draws + 8 ∧
    (receiveBitbang s).2.mem = s.mem ∧ (receiveBitbang s).2.requests = s.requests ∧
    (receiveBitbang s).2.result = s.result ∧ (receiveBitbang s).2.params = s.params := by
  simp [receiveBitbang, receiveBits, receiveBit_eq, Config.wordBits, Nat.add_assoc]


/-! ### The primitives on either bus: what they leave alone, and the word-level trace (10_state.md R41; R115) -/

@[simp] theorem select_cnt (s : State) : (select s).cnt = s.cnt := by
  cases h : s.params.busImpl <;> simp [select, h]
@[simp] theorem select_cmd (s : State) : (select s).cmd = s.cmd := by
  cases h : s.params.busImpl <;> simp [select, h]
@[simp] theorem select_wt (s : State) : (select s).wt = s.wt ++ [.sel] := by
  cases h : s.params.busImpl <;> simp [select, h]
@[simp] theorem select_miso (s : State) : (select s).miso = s.miso := by
  cases h : s.params.busImpl <;> simp [select, h]
@[simp] theorem select_draws (s : State) : (select s).draws = s.draws := by
  cases h : s.params.busImpl <;> simp [select, h]
@[simp] theorem select_mem (s : State) : (select s).mem = s.mem := by
  cases h : s.params.busImpl <;> simp [select, h]
@[simp] theorem select_requests (s : State) : (select s).requests = s.requests := by
  cases h : s.params.busImpl <;> simp [select, h]
@[simp] theorem select_result (s : State) : (select s).result = s.result := by
  cases h : s.params.busImpl <;> simp [select, h]
@[simp] theorem select_params (s : State) : (select s).params = s.params := by
  cases h : s.params.busImpl <;> simp [select, h]
@[simp] theorem drawAt_select (s : State) (k : Nat) : (select s).drawAt k = s.drawAt k := by simp [State.drawAt]
@[simp] theorem drawnWord_select (s : State) (i : Nat) : (select s).drawnWord i = s.drawnWord i :=
  drawnWord_congr (by simp) i
@[simp] theorem bufRead_select (s : State) (c : BufRef) (j : Nat) : (select s).bufRead c j = s.bufRead c j := by
  simp [State.bufRead]
@[simp] theorem readCmd_select (s : State) : (select s).readCmd = s.readCmd := by simp [State.readCmd]
@[simp] theorem readCnt_select (s : State) : (select s).readCnt = s.readCnt := by simp [State.readCnt]

@[simp] theorem deselect_cnt (s : State) : (deselect s).cnt = s.cnt := by
  cases h : s.params.busImpl <;> simp [deselect, h]
@[simp] theorem deselect_cmd (s : State) : (deselect s).cmd = s.cmd := by
  cases h : s.params.busImpl <;> simp [deselect, h]
@[simp] theorem deselect_wt (s : State) : (deselect s).wt = s.wt ++ [.desel] := by
  cases h : s.params.busImpl <;> simp [deselect, h]
@[simp] theorem deselect_miso (s : State) : (deselect s).miso = s.miso := by
  cases h : s.params.busImpl <;> simp [deselect, h]
@[simp] theorem deselect_draws (s : State) : (deselect s).draws = s.draws := by
  cases h : s.params.busImpl <;> simp [deselect, h]
@[simp] theorem deselect_mem (s : State) : (deselect s).mem = s.mem := by
  cases h : s.params.busImpl <;> simp [deselect, h]
@[simp] theorem deselect_requests (s : State) : (deselect s).requests = s.requests := by
  cases h : s.params.busImpl <;> simp [deselect, h]
@[simp] theorem deselect_result (s : State) : (deselect s).result = s.result := by
  cases h : s.params.busImpl <;> simp [deselect, h]
@[simp] theorem deselect_params (s : State) : (deselect s).params = s.params := by
  cases h : s.params.busImpl <;> simp [deselect, h]
@[simp] theorem drawAt_deselect (s : State) (k : Nat) : (deselect s).drawAt k = s.drawAt k := by simp [State.drawAt]
@[simp] theorem drawnWord_deselect (s : State) (i : Nat) : (deselect s).drawnWord i = s.drawnWord i :=
  drawnWord_congr (by simp) i
@[simp] theorem bufRead_deselect (s : State) (c : BufRef) (j : Nat) : (deselect s).bufRead c j = s.bufRead c j := by
  simp [State.bufRead]
@[simp] theorem readCmd_deselect (s : State) : (deselect s).readCmd = s.readCmd := by simp [State.readCmd]
@[simp] theorem readCnt_deselect (s : State) : (deselect s).readCnt = s.readCnt := by simp [State.readCnt]

@[simp] theorem sendByte_cnt (v : Byte) (s : State) : (sendByte v s).cnt = s.cnt := by
  cases h : s.params.busImpl <;> simp [sendByte, sendBitbang_frame, h]
@[simp] theorem sendByte_cmd (v : Byte) (s : State) : (sendByte v s).cmd = s.cmd := by
  cases h : s.params.busImpl <;> simp [sendByte, sendBitbang_frame, h]
@[simp] theorem sendByte_wt (v : Byte) (s : State) : (sendByte v s).wt = s.wt ++ [.tx v] := by
  cases h : s.params.busImpl <;> simp [sendByte, sendBitbang_frame, h]
@[simp] theorem sendByte_miso (v : Byte) (s : State) : (sendByte v s).miso = s.miso := by
  cases h : s.params.busImpl <;> simp [sendByte, sendBitbang_frame, h]
@[simp] theorem sendByte_draws (v : Byte) (s : State) : (sendByte v s).draws = s.draws := by
  cases h : s.params.busImpl <;> simp [sendByte, sendBitbang_frame, h]
@[simp] theorem sendByte_mem (v : Byte) (s : State) : (sendByte v s).mem = s.mem := by
  cases h : s.params.busImpl <;> simp [sendByte, sendBitbang_frame, h]
@[simp] theorem sendByte_requests (v : Byte) (s : State) : (sendByte v s).requests = s.requests := by
  cases h : s.params.busImpl <;> simp [sendByte, sendBitbang_frame, h]
@[simp] theorem sendByte_result (v : Byte) (s : State) : (sendByte v s).result = s.result := by
  cases h : s.params.busImpl <;> simp [sendByte, sendBitbang_frame, h]
@[simp] theorem sendByte_params (v : Byte) (s : State) : (sendByte v s).params = s.params := by
  cases h : s.params.busImpl <;> simp [sendByte, sendBitbang_frame, h]
@[simp] theorem drawAt_sendByte (v : Byte) (s : State) (k : Nat) : (sendByte v s).drawAt k = s.drawAt k := by simp [State.drawAt]
@[simp] theorem drawnWord_sendByte (v : Byte) (s : State) (i : Nat) : (sendByte v s).drawnWord i = s.drawnWord i :=
  drawnWord_congr (by simp) i
@[simp] theorem bufRead_sendByte (v : Byte) (s : State) (c : BufRef) (j : Nat) : (sendByte v s).bufRead c j = s.bufRead c j := by
  simp [State.bufRead]
@[simp] theorem readCmd_sendByte (v : Byte) (s : State) : (sendByte v s).readCmd = s.readCmd := by simp [State.readCmd]
@[simp] theorem readCnt_sendByte (v : Byte) (s : State) : (sendByte v s).readCnt = s.readCnt := by simp [State.readCnt]

@[simp] theorem receiveByte_cnt (s : State) : ((receiveByte s).2).cnt = s.cnt := by
  cases h : s.params.busImpl <;> simp [receiveByte, receiveBitbang_frame, receiveBitbang_fst, Config.wordBits, h]
@[simp] theorem receiveByte_cmd (s : State) : ((receiveByte s).2).cmd = s.cmd := by
  cases h : s.params.busImpl <;> simp [receiveByte, receiveBitbang_frame, receiveBitbang_fst, Config.wordBits, h]
@[simp] theorem receiveByte_wt (s : State) : ((receiveByte s).2).wt = s.wt ++ [.rx (s.drawnWord 0)] := by
  cases h : s.params.busImpl <;> simp [receiveByte, receiveBitbang_frame, receiveBitbang_fst, Config.wordBits, h]
@[simp] theorem receiveByte_miso (s : State) : ((receiveByte s).2).miso = s.miso.drop 8 := by
  cases h : s.params.busImpl <;> simp [receiveByte, receiveBitbang_frame, receiveBitbang_fst, Config.wordBits, h]
@[simp] theorem receiveByte_draws (s : State) : ((receiveByte s).2).draws = s.draws + 8 := by
  cases h : s.params.busImpl <;> simp [receiveByte, receiveBitbang_frame, receiveBitbang_fst, Config.wordBits, h]
@[simp] theorem receiveByte_mem (s : State) : ((receiveByte s).2).mem = s.mem := by
  cases h : s.params.busImpl <;> simp [receiveByte, receiveBitbang_frame, receiveBitbang_fst, Config.wordBits, h]
@[simp] theorem receiveByte_requests (s : State) : ((receiveByte s).2).requests = s.requests := by
  cases h : s.params.busImpl <;> simp [receiveByte, receiveBitbang_frame, receiveBitbang_fst, Config.wordBits, h]
@[simp] theorem receiveByte_result (s : State) : ((receiveByte s).2).result = s.result := by
  cases h : s.params.busImpl <;> simp [receiveByte, receiveBitbang_frame, receiveBitbang_fst, Config.wordBits, h]
@[simp] theorem receiveByte_params (s : State) : ((receiveByte s).2).params = s.params := by
  cases h : s.params.busImpl <;> simp [receiveByte, receiveBitbang_frame, receiveBitbang_fst, Config.wordBits, h]
/-- The received word is the next eight draws, first in bit 7 (R113). -/
@[simp] theorem receiveByte_fst (s : State) : (receiveByte s).1 = s.drawnWord 0 := by
  cases h : s.params.busImpl <;> simp [receiveByte, receiveBitbang_fst, h]
@[simp] theorem drawAt_receiveByte (s : State) (k : Nat) : (receiveByte s).2.drawAt k = s.drawAt (8 + k) := by
  rw [← drawAt_takeDraws]; simp [State.drawAt]
@[simp] theorem drawnWord_receiveByte (s : State) (i : Nat) : (receiveByte s).2.drawnWord i = s.drawnWord (i + 1) := by
  rw [← drawnWord_takeDraws]; exact drawnWord_congr (by simp) i
@[simp] theorem bufRead_receiveByte (s : State) (c : BufRef) (j : Nat) : ((receiveByte s).2).bufRead c j = s.bufRead c j := by
  simp [State.bufRead]
@[simp] theorem readCmd_receiveByte (s : State) : ((receiveByte s).2).readCmd = s.readCmd := by simp [State.readCmd]
@[simp] theorem readCnt_receiveByte (s : State) : ((receiveByte s).2).readCnt = s.readCnt := by simp [State.readCnt]

/-! ### The primitives on the bit-bang bus: latches and action list (R110 to R113, R122) -/

theorem select_latches (s : State) (h : s.Bitbang) : (select s).latches = { s.latches with cs := .active } := by
  simp [select, show s.params.busImpl = .bitbang from h]
theorem select_lt (s : State) (h : s.Bitbang) : (select s).lt = s.lt ++ [.cs .active] := by
  simp [select, show s.params.busImpl = .bitbang from h]
theorem deselect_latches (s : State) (h : s.Bitbang) : (deselect s).latches = { s.latches with cs := .inactive } := by
  simp [deselect, show s.params.busImpl = .bitbang from h]
theorem deselect_lt (s : State) (h : s.Bitbang) : (deselect s).lt = s.lt ++ [.cs .inactive] := by
  simp [deselect, show s.params.busImpl = .bitbang from h]
theorem sendByte_latches (v : Byte) (s : State) (h : s.Bitbang) : (sendByte v s).latches = ⟨false, false, s.latches.cs⟩ := by
  simp [sendByte, show s.params.busImpl = .bitbang from h, sendBitbang_latches]
theorem sendByte_lt (v : Byte) (s : State) (h : s.Bitbang) : (sendByte v s).lt = s.lt ++ sendActions v := by
  simp [sendByte, show s.params.busImpl = .bitbang from h, sendBitbang_lt]
theorem receiveByte_latches (s : State) (h : s.Bitbang) : ((receiveByte s).2).latches = ⟨false, false, s.latches.cs⟩ := by
  simp [receiveByte, show s.params.busImpl = .bitbang from h, receiveBitbang_latches]
theorem receiveByte_lt (s : State) (h : s.Bitbang) : ((receiveByte s).2).lt = s.lt ++ receiveActions s.drawAt := by
  simp [receiveByte, show s.params.busImpl = .bitbang from h, receiveBitbang_lt]

/-! ### The primitives on an external bus: `LT` is not defined for it and gains nothing (10_state.md R40; 40_bus_primitives.md R115) -/

theorem external_of_not_bitbang {s : State} (h : ¬ s.Bitbang) : s.params.busImpl = .external := by
  cases e : s.params.busImpl with
  | bitbang => exact absurd e h
  | external => rfl

theorem select_noLines (s : State) (h : ¬ s.Bitbang) : (select s).lt = s.lt := by
  simp [select, external_of_not_bitbang h]
theorem deselect_noLines (s : State) (h : ¬ s.Bitbang) : (deselect s).lt = s.lt := by
  simp [deselect, external_of_not_bitbang h]
theorem sendByte_noLines (v : Byte) (s : State) (h : ¬ s.Bitbang) : (sendByte v s).lt = s.lt := by
  simp [sendByte, external_of_not_bitbang h]
theorem receiveByte_noLines (s : State) (h : ¬ s.Bitbang) : (receiveByte s).2.lt = s.lt := by
  simp [receiveByte, external_of_not_bitbang h]

end Sys2Proof.Machine
end

