-- ==== Sys2Proof/Laws/Words.lean ====
section
/-! SUPPORT. The bits of a word of draws, and the two word loops (42_payload_and_address.md). -/

namespace Sys2Proof.Machine

/-- Eight bits read MSB first, bit by bit in wire order. -/
theorem wireBit_wordOf8 : ∀ b0 b1 b2 b3 b4 b5 b6 b7 : Bool,
    wireBit (wordOf8 b0 b1 b2 b3 b4 b5 b6 b7) 0 = b0 ∧ wireBit (wordOf8 b0 b1 b2 b3 b4 b5 b6 b7) 1 = b1 ∧
    wireBit (wordOf8 b0 b1 b2 b3 b4 b5 b6 b7) 2 = b2 ∧ wireBit (wordOf8 b0 b1 b2 b3 b4 b5 b6 b7) 3 = b3 ∧
    wireBit (wordOf8 b0 b1 b2 b3 b4 b5 b6 b7) 4 = b4 ∧ wireBit (wordOf8 b0 b1 b2 b3 b4 b5 b6 b7) 5 = b5 ∧
    wireBit (wordOf8 b0 b1 b2 b3 b4 b5 b6 b7) 6 = b6 ∧ wireBit (wordOf8 b0 b1 b2 b3 b4 b5 b6 b7) 7 = b7 := by
  decide

/-- A word is the eight bits it shows on the wire. -/
theorem wordOf8_wireBit : ∀ v : Byte, wordOf8 (wireBit v 0) (wireBit v 1) (wireBit v 2) (wireBit v 3) (wireBit v 4)
    (wireBit v 5) (wireBit v 6) (wireBit v 7) = v := by
  decide

/-- Collecting eight bits by shift and OR reads them MSB first (40_bus_primitives.md R113, R121). -/
theorem wordOfBits_eq (f : Nat → Level) :
    wordOfBits f = wordOf8 (f 0) (f 1) (f 2) (f 3) (f 4) (f 5) (f 6) (f 7) := by
  have key : ∀ b0 b1 b2 b3 b4 b5 b6 b7 : Bool, wordOfBits (fun j => [b0, b1, b2, b3, b4, b5, b6, b7].getD j false) =
      wordOf8 b0 b1 b2 b3 b4 b5 b6 b7 := by decide
  rw [← key]; simp [wordOfBits, Config.wordBits, List.range_succ]

/-- The k-th of eight bits collected MSB first is on the wire k-th (20_memory.md R57; 40_bus_primitives.md R121). -/
theorem wireBit_wordOfBits (f : Nat → Level) (k : Nat) (hk : k < 8) : wireBit (wordOfBits f) k = f k := by
  obtain ⟨h0, h1, h2, h3, h4, h5, h6, h7⟩ := wireBit_wordOf8 (f 0) (f 1) (f 2) (f 3) (f 4) (f 5) (f 6) (f 7)
  rw [wordOfBits_eq]
  interval_cases k <;> assumption

/-- Collecting a word's own bits gives the word. -/
theorem wordOfBits_wireBit (v : Byte) : wordOfBits (wireBit v) = v := by
  rw [wordOfBits_eq, wordOf8_wireBit]

/-- The bits of the i-th word of draws. -/
theorem wireBit_drawnWord (s : State) (i k : Nat) (hk : k < 8) : wireBit (s.drawnWord i) k = s.drawAt (8 * i + k) :=
  wireBit_wordOfBits _ k hk

/-- An incoming word's action list depends on its eight draws alone. -/
theorem receiveActions_congr {f g : Nat → Level} (h : ∀ k, k < 8 → f k = g k) : receiveActions f = receiveActions g := by
  simp [receiveActions, List.range_succ, h]

/-- The action list of an incoming word is that of its `Rx` event (10_state.md R41). -/
theorem receiveActions_drawAt (s : State) : receiveActions s.drawAt = receiveActions (wireBit (s.drawnWord 0)) :=
  receiveActions_congr fun k hk => by simpa using (wireBit_drawnWord s 0 k hk).symm

@[simp] theorem drawnWord_setCnt (s : State) (i k : Nat) : (s.setCnt i).drawnWord k = s.drawnWord k := rfl
@[simp] theorem drawnWord_setCmd (s : State) (v : Byte) (k : Nat) : (s.setCmd v).drawnWord k = s.drawnWord k := rfl
@[simp] theorem drawnWord_start (op : Instr) (s : State) (k : Nat) : (start op s).drawnWord k = s.drawnWord k := rfl
@[simp] theorem drawnWord_bufWrite (s : State) (b : BufRef) (i : Nat) (v : Byte) (k : Nat) :
    (s.bufWrite b i v).drawnWord k = s.drawnWord k := rfl
@[simp] theorem readCnt_setCnt (s : State) (i : Nat) : (s.setCnt i).readCnt = i := rfl
@[simp] theorem readCmd_setCmd (s : State) (v : Byte) : (s.setCmd v).readCmd = v := rfl

/-- The bus implementation is a build-time constant. -/
theorem bitbang_congr {s t : State} (h : s.Bitbang) (e : t.params = s.params) : t.Bitbang := by
  rw [State.Bitbang, e]; exact h

/-! ### Outgoing words -/

theorem sendWords_succ (b : BufRef) (i n : Nat) (s : State) :
    sendWords b i (n + 1) s = sendWords b (i + 1) n (sendByte (s.bufRead b i) (s.setCnt i)) := rfl

/-- What sending `n` elements leaves alone. -/
theorem sendWords_frame (b : BufRef) (i n : Nat) (s : State) :
    (sendWords b i n s).cmd = s.cmd ∧ (sendWords b i n s).miso = s.miso ∧ (sendWords b i n s).draws = s.draws ∧
    (sendWords b i n s).mem = s.mem ∧ (sendWords b i n s).requests = s.requests ∧
    (sendWords b i n s).result = s.result ∧ (sendWords b i n s).params = s.params := by
  induction n generalizing i s with
  | zero => simp [sendWords]
  | succ n ih => rw [sendWords_succ]; simp [ih]

/-- The elements are sent in array order, each once (20_memory.md R54, R58). -/
theorem sendWords_wt (b : BufRef) (i n : Nat) (s : State) :
    (sendWords b i n s).wt = s.wt ++ (List.range' i n).map (fun j => .tx (s.bufRead b j)) := by
  induction n generalizing i s with
  | zero => simp [sendWords]
  | succ n ih => rw [sendWords_succ, ih]; simp [List.range'_succ]

theorem sendWords_lt (b : BufRef) (i n : Nat) (s : State) (h : s.Bitbang) :
    (sendWords b i n s).lt = s.lt ++ (List.range' i n).flatMap (fun j => sendActions (s.bufRead b j)) := by
  induction n generalizing i s with
  | zero => simp [sendWords]
  | succ n ih =>
    rw [sendWords_succ, ih _ _ (bitbang_congr h (by simp)), sendByte_lt _ _ (bitbang_congr h (by simp))]
    simp [List.range'_succ]

theorem sendWords_latches (b : BufRef) (i n : Nat) (s : State) (h : s.Bitbang) :
    (sendWords b i n s).latches = if n = 0 then s.latches else ⟨false, false, s.latches.cs⟩ := by
  induction n generalizing i s with
  | zero => simp [sendWords]
  | succ n ih =>
    rw [sendWords_succ, ih _ _ (bitbang_congr h (by simp)), sendByte_latches _ _ (bitbang_congr h (by simp))]
    simp

theorem sendWords_noLines (b : BufRef) (i n : Nat) (s : State) (h : ¬ s.Bitbang) : (sendWords b i n s).lt = s.lt := by
  induction n generalizing i s with
  | zero => simp [sendWords]
  | succ n ih =>
    have h' : ¬ (s.setCnt i).Bitbang := h
    rw [sendWords_succ, ih _ _ (fun c => h (bitbang_congr c (by simp))), sendByte_noLines _ _ h', setCnt_lt]

/-! ### Incoming words -/

theorem receiveWords_succ (b : BufRef) (i n : Nat) (s : State) :
    receiveWords b i (n + 1) s =
      receiveWords b (i + 1) n ((receiveByte (s.setCnt i)).2.bufWrite b i (s.drawnWord 0)) := by
  simp [receiveWords]

/-- What receiving `n` words leaves alone, and the draws it uses. -/
theorem receiveWords_frame (b : BufRef) (i n : Nat) (s : State) :
    (receiveWords b i n s).cmd = s.cmd ∧ (receiveWords b i n s).miso = s.miso.drop (8 * n) ∧
    (receiveWords b i n s).draws = s.draws + 8 * n ∧ (receiveWords b i n s).requests = s.requests ∧
    (receiveWords b i n s).result = s.result ∧ (receiveWords b i n s).params = s.params := by
  induction n generalizing i s with
  | zero => simp [receiveWords]
  | succ n ih => rw [receiveWords_succ]; simp [ih, Nat.mul_add, Nat.add_comm]; omega

theorem receiveWords_wt (b : BufRef) (i n : Nat) (s : State) :
    (receiveWords b i n s).wt = s.wt ++ (List.range n).map (fun k => .rx (s.drawnWord k)) := by
  induction n generalizing i s with
  | zero => simp [receiveWords]
  | succ n ih =>
    rw [receiveWords_succ, ih, List.range_succ_eq_map]
    simp [Function.comp_def]

/-- The i-th received word is stored at the i-th element (42_payload_and_address.md R160). -/
theorem receiveWords_mem (b : BufRef) (i n : Nat) (s : State) :
    (receiveWords b i n s).mem = s.mem.storeWords b i ((List.range n).map s.drawnWord) := by
  induction n generalizing i s with
  | zero => simp [receiveWords, Memory.storeWords]
  | succ n ih =>
    have e : ((receiveByte (s.setCnt i)).2.bufWrite b i (s.drawnWord 0)).drawnWord = fun k => s.drawnWord (k + 1) :=
      funext fun k => by simp
    rw [receiveWords_succ, ih, List.range_succ_eq_map, e]
    simp [Memory.storeWords, Function.comp_def]

theorem receiveWords_lt (b : BufRef) (i n : Nat) (s : State) (h : s.Bitbang) :
    (receiveWords b i n s).lt = s.lt ++ (List.range n).flatMap (fun k => receiveActions (wireBit (s.drawnWord k))) := by
  induction n generalizing i s with
  | zero => simp [receiveWords]
  | succ n ih =>
    rw [receiveWords_succ, ih _ _ (bitbang_congr h (by simp)), List.range_succ_eq_map]
    simp [receiveByte_lt _ (bitbang_congr h (t := s.setCnt i) (by simp)), receiveActions_drawAt, List.flatMap_map,
      -drawAt_setCnt]

theorem receiveWords_noLines (b : BufRef) (i n : Nat) (s : State) (h : ¬ s.Bitbang) : (receiveWords b i n s).lt = s.lt := by
  induction n generalizing i s with
  | zero => simp [receiveWords]
  | succ n ih =>
    have h' : ¬ (s.setCnt i).Bitbang := h
    rw [receiveWords_succ, ih _ _ (fun c => h (bitbang_congr c (by simp))), bufWrite_lt, receiveByte_noLines _ h', setCnt_lt]

theorem receiveWords_latches (b : BufRef) (i n : Nat) (s : State) (h : s.Bitbang) :
    (receiveWords b i n s).latches = if n = 0 then s.latches else ⟨false, false, s.latches.cs⟩ := by
  induction n generalizing i s with
  | zero => simp [receiveWords]
  | succ n ih =>
    rw [receiveWords_succ, ih _ _ (bitbang_congr h (by simp))]
    simp [receiveByte_latches _ (bitbang_congr h (t := s.setCnt i) (by simp))]

end Sys2Proof.Machine
end

