-- ==== Sys2Proof/Laws/Framers.lean ====
section
/-! SUPPORT. What each transaction of the protocol layer does (41_register_access.md, 42_payload_and_address.md): its words on either
bus, and on the bit-bang bus its lines. -/

namespace Sys2Proof.Machine

/-! ### Replaying action lists -/

@[simp] theorem replay_nil (l : Latches) : replay l [] = l := rfl
@[simp] theorem replay_append (l : Latches) (t u : List Action) : replay l (t ++ u) = replay (replay l t) u := by
  simp [replay]
@[simp] theorem replay_cons (l : Latches) (a : Action) (t : List Action) : replay l (a :: t) = replay (l.apply a) t := rfl

/-- A sent word leaves clock and data-out low (40_bus_primitives.md R122). -/
@[simp] theorem replay_sendActions (l : Latches) (v : Byte) : replay l (sendActions v) = ⟨false, false, l.cs⟩ := by
  simp [sendActions, List.range_succ]

/-- A received word leaves clock and data-out low (R122). -/
@[simp] theorem replay_receiveActions (l : Latches) (f : Nat → Level) : replay l (receiveActions f) = ⟨false, false, l.cs⟩ := by
  simp [receiveActions, List.range_succ]

@[simp] theorem traceOf_nil : traceOf [] = [] := rfl
@[simp] theorem traceOf_cons (e : Event) (w : List Event) : traceOf (e :: w) = e.actions ++ traceOf w := by simp [traceOf]
@[simp] theorem traceOf_append (w x : List Event) : traceOf (w ++ x) = traceOf w ++ traceOf x := by simp [traceOf]

@[simp] theorem actions_sel : Event.actions .sel = [.cs .active] := rfl
@[simp] theorem actions_desel : Event.actions .desel = [.cs .inactive] := rfl
@[simp] theorem actions_tx (v : Byte) : Event.actions (.tx v) = sendActions v := rfl
@[simp] theorem actions_rx (r : Byte) : Event.actions (.rx r) = receiveActions (wireBit r) := rfl

/-- Zero or more word frames leave the lines as their last one does. -/
theorem replay_words (w : List Event) (hw : ∀ e ∈ w, (∃ v, e = .tx v) ∨ ∃ r, e = .rx r) (l : Latches) :
    replay l (traceOf w) = if w.length = 0 then l else ⟨false, false, l.cs⟩ := by
  induction w generalizing l with
  | nil => simp
  | cons e w ih =>
    have hw' := fun x hx => hw x (List.mem_cons_of_mem _ hx)
    rcases hw e (by simp) with ⟨v, rfl⟩ | ⟨r, rfl⟩ <;> simp [ih hw']

theorem sentWords_mem (s : State) (b : BufRef) (n : Nat) : ∀ e ∈ sentWords s b n, (∃ v, e = .tx v) ∨ ∃ r, e = .rx r := by
  simp [sentWords]

theorem receivedWords_mem (s : State) (n : Nat) : ∀ e ∈ receivedWords s n, (∃ v, e = .tx v) ∨ ∃ r, e = .rx r := by
  simp [receivedWords]

theorem traceOf_sentWords (s : State) (b : BufRef) (n : Nat) :
    traceOf (sentWords s b n) = (List.range' 0 n).flatMap (fun j => sendActions (s.bufRead b j)) := by
  simp [traceOf, sentWords, List.flatMap_map, List.range_eq_range']

theorem traceOf_receivedWords (s : State) (n : Nat) :
    traceOf (receivedWords s n) = (List.range n).flatMap (fun k => receiveActions (wireBit (s.drawnWord k))) := by
  simp [traceOf, receivedWords, List.flatMap_map]

/-! ### Sequences of primitives -/

/-- What a sequence of primitives did, from `s` to `t`: the primitive calls it appended to `WT`, the words of draws it used, the
host's bytes after it, and on the bit-bang bus its actions, those of its primitive calls in order, and the latches they leave. An
external bus adds nothing to `LT`. -/
structure Ran (s t : State) (w : List Event) (n : Nat) (m : Memory) : Prop where
  wt : t.wt = s.wt ++ w
  miso : t.miso = s.miso.drop (8 * n)
  draws : t.draws = s.draws + 8 * n
  mem : t.mem = m
  requests : t.requests = s.requests
  params : t.params = s.params
  lines : s.Bitbang → t.lt = s.lt ++ traceOf w ∧ t.latches = replay s.latches (traceOf w)
  noLines : ¬ s.Bitbang → t.lt = s.lt

/-- One sequence after another (20_memory.md R66). -/
theorem Ran.trans {s t u : State} {w x : List Event} {n k : Nat} {m p : Memory} (h : Ran s t w n m) (g : Ran t u x k p) :
    Ran s u (w ++ x) (n + k) p where
  wt := by rw [g.wt, h.wt, List.append_assoc]
  miso := by rw [g.miso, h.miso, List.drop_drop]; congr 1; omega
  draws := by rw [g.draws, h.draws]; omega
  mem := g.mem
  requests := by rw [g.requests, h.requests]
  params := by rw [g.params, h.params]
  lines := fun b => by
    obtain ⟨h1, h2⟩ := h.lines b
    obtain ⟨g1, g2⟩ := g.lines (bitbang_congr b h.params)
    exact ⟨by rw [g1, h1, traceOf_append, List.append_assoc], by rw [g2, h2, traceOf_append, replay_append]⟩
  noLines := fun b => by
    rw [g.noLines fun c => b (bitbang_congr c h.params.symm), h.noLines b]

/-- Draws to come after `n` words. -/
theorem Ran.drawAt {s t : State} {w : List Event} {n : Nat} {m : Memory} (h : Ran s t w n m) (k : Nat) :
    t.drawAt k = s.drawAt (8 * n + k) := by
  rw [← drawAt_takeDraws]; simp [State.drawAt, h.miso, h.draws]

theorem start_ran (op : Instr) (s : State) : Ran s (start op s) [] 0 s.mem := by
  constructor <;> simp

theorem setCmd_ran (s : State) (v : Byte) : Ran s (s.setCmd v) [] 0 s.mem := by
  constructor <;> simp

theorem select_ran (s : State) : Ran s (select s) [.sel] 0 s.mem :=
  ⟨by simp, by simp, by simp, by simp, by simp, by simp,
    fun h => ⟨by rw [select_lt s h]; simp, by rw [select_latches s h]; simp⟩, select_noLines s⟩

theorem deselect_ran (s : State) : Ran s (deselect s) [.desel] 0 s.mem :=
  ⟨by simp, by simp, by simp, by simp, by simp, by simp,
    fun h => ⟨by rw [deselect_lt s h]; simp, by rw [deselect_latches s h]; simp⟩, deselect_noLines s⟩

theorem sendByte_ran (v : Byte) (s : State) : Ran s (sendByte v s) [.tx v] 0 s.mem :=
  ⟨by simp, by simp, by simp, by simp, by simp, by simp,
    fun h => ⟨by rw [sendByte_lt v s h]; simp, by rw [sendByte_latches v s h]; simp⟩, sendByte_noLines v s⟩

theorem receiveByte_ran (s : State) : Ran s (receiveByte s).2 [.rx (s.drawnWord 0)] 1 s.mem :=
  ⟨by simp, by simp, by simp, by simp, by simp, by simp,
    fun h => ⟨by rw [receiveByte_lt s h, receiveActions_drawAt]; simp, by rw [receiveByte_latches s h]; simp⟩,
    receiveByte_noLines s⟩

theorem sendWords_ran (b : BufRef) (n : Nat) (s : State) : Ran s (sendWords b 0 n s) (sentWords s b n) 0 s.mem := by
  obtain ⟨-, hm, hd, hmem, hq, -, hp⟩ := sendWords_frame b 0 n s
  refine ⟨by rw [sendWords_wt, sentWords, List.range_eq_range'], by simpa using hm, by simpa using hd, hmem, hq, hp, fun h => ⟨?_, ?_⟩,
    sendWords_noLines b 0 n s⟩
  · rw [sendWords_lt _ _ _ _ h, traceOf_sentWords]
  · rw [sendWords_latches _ _ _ _ h, replay_words _ (sentWords_mem s b n)]; simp [sentWords]

theorem receiveWords_ran (b : BufRef) (n : Nat) (s : State) :
    Ran s (receiveWords b 0 n s) (receivedWords s n) n (s.mem.storeWords b 0 ((List.range n).map s.drawnWord)) := by
  obtain ⟨-, hm, hd, hq, -, hp⟩ := receiveWords_frame b 0 n s
  refine ⟨receiveWords_wt b 0 n s, hm, hd, receiveWords_mem b 0 n s, hq, hp, fun h => ⟨?_, ?_⟩,
    receiveWords_noLines b 0 n s⟩
  · rw [receiveWords_lt _ _ _ _ h, traceOf_receivedWords]
  · rw [receiveWords_latches _ _ _ _ h, replay_words _ (receivedWords_mem s n)]; simp [receivedWords]

/-- Before the first word loop nothing has changed the host's bytes. -/
theorem Ran.sentWords {s t : State} {w : List Event} {n : Nat} (h : Ran s t w n s.mem) (b : BufRef) (k : Nat) :
    sentWords t b k = sentWords s b k := by
  simp [Machine.sentWords, State.bufRead, h.mem]

theorem Ran.drawnWord {s t : State} {w : List Event} {m : Memory} (h : Ran s t w 0 m) : t.drawnWord = s.drawnWord :=
  funext (drawnWord_congr fun k => by simpa using h.drawAt k)

/-! ### A completed operation -/

/-- An operation that ran to completion: what its primitives did, its result, and that nothing of it remains (10_state.md R20,
R43). -/
structure Did (s t : State) (w : List Event) (r : Option Byte) (n : Nat) (m : Memory) : Prop extends Ran s t w n m where
  result : t.result = r
  quiescent : t.Quiescent

theorem Ran.finish {s t : State} {w : List Event} {n : Nat} {m : Memory} (h : Ran s t w n m) (r : Option Byte) :
    Did s (Machine.finish r t) w r n m where
  wt := h.wt
  miso := h.miso
  draws := h.draws
  mem := h.mem
  requests := h.requests
  params := h.params
  lines := h.lines
  noLines := h.noLines
  result := rfl
  quiescent := ⟨rfl, rfl, rfl, rfl, rfl, rfl⟩

/-! ### The seven transactions -/

theorem open_ran (op : Instr) (s : State) : Ran s (select (start op s)) [.sel] 0 s.mem := by
  simpa using (start_ran op s).trans (select_ran _)

/-- A session opened with a Command Byte composed before select. -/
theorem command_ran (op : Instr) (cmd : Byte) (s : State) :
    Ran s (sendCmd (select ((start op s).setCmd cmd))) [.sel, .tx cmd] 0 s.mem := by
  have e : sendCmd (select ((start op s).setCmd cmd)) = sendByte cmd (select ((start op s).setCmd cmd)) := by
    rw [sendCmd, readCmd_select, readCmd_setCmd]
  have h := ((start_ran op s).trans (setCmd_ran _ cmd)).trans (select_ran _)
  rw [e]
  simpa using h.trans (sendByte_ran cmd _)

/-- A session opened with a fixed or caller-given opcode. -/
theorem opcode_ran (op : Instr) (opcode : Byte) (s : State) :
    Ran s (sendByte opcode (select (start op s))) [.sel, .tx opcode] 0 s.mem := by
  simpa using (open_ran op s).trans (sendByte_ran opcode _)

theorem frameWrite_did (op : Instr) (cmd value : Byte) (s : State) :
    Did s (frameWrite op cmd value s) [.sel, .tx cmd, .tx value, .desel] none 0 s.mem := by
  have h := ((command_ran op cmd s).trans (sendByte_ran value _)).trans (deselect_ran _)
  exact Ran.finish (by simpa [(command_ran op cmd s).mem] using h) none

theorem frameRead_did (op : Instr) (cmd : Byte) (s : State) :
    Did s (frameRead op cmd s) [.sel, .tx cmd, .rx (s.drawnWord 0), .desel] (some (s.drawnWord 0)) 1 s.mem := by
  have c := command_ran op cmd s
  have h := (c.trans (receiveByte_ran _)).trans (deselect_ran _)
  have g := Ran.finish (by simpa [c.mem, c.drawnWord] using h) (some (s.drawnWord 0))
  simpa [frameRead, c.drawnWord] using g

theorem frameCommand_did (op : Instr) (opcode : Byte) (s : State) :
    Did s (frameCommand op opcode s) [.sel, .tx opcode, .desel] none 0 s.mem := by
  have h := (opcode_ran op opcode s).trans (deselect_ran _)
  exact Ran.finish (by simpa [(opcode_ran op opcode s).mem] using h) none

theorem frameReceive_did (op : Instr) (opcode : Byte) (b : BufRef) (n : Nat) (s : State) :
    Did s (frameReceive op opcode b n s) ([.sel, .tx opcode] ++ receivedWords s n ++ [.desel]) none n
      (s.mem.storeWords b 0 ((List.range n).map s.drawnWord)) := by
  have c := opcode_ran op opcode s
  have h := (c.trans (receiveWords_ran b n _)).trans (deselect_ran _)
  exact Ran.finish (by simpa [c.mem, c.drawnWord, receivedWords, (receiveWords_ran b n _).mem] using h) none

theorem frameSend_did (op : Instr) (opcode : Byte) (b : BufRef) (n : Nat) (s : State) :
    Did s (frameSend op opcode b n s) ([.sel, .tx opcode] ++ sentWords s b n ++ [.desel]) none 0 s.mem := by
  have c := opcode_ran op opcode s
  have h := (c.trans (sendWords_ran b n _)).trans (deselect_ran _)
  exact Ran.finish (by simpa [c.mem, c.sentWords, (sendWords_ran b n _).mem] using h) none

theorem frameAddress_did (op : Instr) (cmd : Byte) (b : BufRef) (s : State) :
    Did s (frameAddress op cmd b s) ([.sel, .tx cmd] ++ sentWords s b Config.addrLen ++ [.desel]) none 0 s.mem := by
  have c := command_ran op cmd s
  have h := (c.trans (sendWords_ran b Config.addrLen _)).trans (deselect_ran _)
  exact Ran.finish (by simpa [c.mem, c.sentWords, (sendWords_ran b _ _).mem] using h) none

theorem frameBulk_did (op : Instr) (b : BufRef) (n : Nat) (s : State) :
    Did s (frameBulk op b n s) ([.sel] ++ sentWords s b n ++ [.desel]) none 0 s.mem := by
  have c := open_ran op s
  have h := (c.trans (sendWords_ran b n _)).trans (deselect_ran _)
  exact Ran.finish (by simpa [c.mem, c.sentWords, (sendWords_ran b n _).mem] using h) none

end Sys2Proof.Machine
end

