-- ==== Sys2Proof/Laws/Exec.lean ====
section
/-! SUPPORT. What exec and step can do, said once for all instructions. -/

namespace Sys2Proof

open Sys2Proof.Machine

/-- The word an operation returns (10_state.md R43): a received word, first draw in bit 7. -/
def Instr.returns (s : State) (i : Instr) : Option Byte :=
  match i with
  | .sendZeroReceiveByte | .readRegister _ | .wireReadRegister _ => some (s.drawnWord 0)
  | _ => none

/-- The host's bytes after an operation. -/
def Instr.memAfter (s : State) (i : Instr) : Memory :=
  match i.stores with
  | some (b, n) => s.mem.storeWords b 0 ((List.range n).map s.drawnWord)
  | none => s.mem

end Sys2Proof

namespace Sys2Proof.Machine

/-- An operation whose buffer has room runs. -/
theorem withCapacity_next (b : BufRef) (n : Nat) (run : State → State) (s : State) (h : n ≤ b.cap) :
    withCapacity b n run s = .next (run s) := by
  simp [withCapacity, Nat.not_lt.mpr h]

/-- An operation whose buffer is too small is refused with nothing done (20_memory.md R56). -/
theorem withCapacity_refused (b : BufRef) (n : Nat) (run : State → State) (s : State) (h : ¬ n ≤ b.cap) :
    withCapacity b n run s = .refused .capacity := by
  simp [withCapacity, Nat.lt_of_not_le h]

theorem primitive_did (op : Instr) {s t : State} {w : List Event} {n : Nat} {m : Memory} (h : Ran (start op s) t w n m)
    (r : Option Byte) : Did s (finish r t) w r n m :=
  Ran.finish (by simpa using (start_ran op s).trans h) r

/-- Every accepted operation runs to completion and does what its transaction format says (30_encoding.md R88; 60_exceptions.md
R190). -/
theorem exec_accepted (i : Instr) (s : State) (h : i.accepted = true) :
    ∃ t, exec i s = .next t ∧ Did s t (i.words s) (i.returns s) i.received (i.memAfter s) := by
  cases i <;> simp only [Instr.accepted, Instr.isReserved, Instr.moves, Bool.not_false, Bool.not_true, Bool.true_and, Bool.false_and,
    decide_eq_true_eq, Bool.false_eq_true] at h
  case select => exact ⟨_, rfl, primitive_did _ (select_ran _) none⟩
  case deselect => exact ⟨_, rfl, primitive_did _ (deselect_ran _) none⟩
  case sendByte value => exact ⟨_, rfl, primitive_did _ (sendByte_ran _ _) none⟩
  case sendZeroReceiveByte =>
    refine ⟨_, rfl, ?_⟩
    have := primitive_did _ (receiveByte_ran (start .sendZeroReceiveByte s)) (some (s.drawnWord 0))
    simpa [Instr.words, Instr.returns, Instr.received, Instr.memAfter, Instr.stores] using this
  case writeRegister reg value => exact ⟨_, rfl, frameWrite_did _ _ _ s⟩
  case readRegister reg => exact ⟨_, rfl, frameRead_did _ _ s⟩
  case command opcode => exact ⟨_, rfl, frameCommand_did _ _ s⟩
  case readPayload b n => exact ⟨_, withCapacity_next b n _ s h, frameReceive_did _ _ b n s⟩
  case writePayload b n => exact ⟨_, withCapacity_next b n _ s h, frameSend_did _ _ b n s⟩
  case writeAddressRx0 b => exact ⟨_, withCapacity_next b _ _ s h, frameAddress_did _ _ b s⟩
  case writeAddressTx b => exact ⟨_, withCapacity_next b _ _ s h, frameAddress_did _ _ b s⟩
  case writeRegistersBulk b n => exact ⟨_, withCapacity_next b n _ s h, frameBulk_did _ b n s⟩
  case wireWriteRegister reg value => exact ⟨_, rfl, frameWrite_did _ _ _ s⟩
  case wireReadRegister reg => exact ⟨_, rfl, frameRead_did _ _ s⟩
  case wireCommand opcode => exact ⟨_, rfl, frameCommand_did _ _ s⟩
  case wireReadPayload b n => exact ⟨_, withCapacity_next b n _ s h, frameReceive_did _ _ b n s⟩
  case wireWritePayload b n => exact ⟨_, withCapacity_next b n _ s h, frameSend_did _ _ b n s⟩
  case wireWriteAddressRx0 b => exact ⟨_, withCapacity_next b _ _ s h, frameAddress_did _ _ b s⟩
  case wireWriteAddressTx b => exact ⟨_, withCapacity_next b _ _ s h, frameAddress_did _ _ b s⟩
  case wireWriteRegistersBulk b n => exact ⟨_, withCapacity_next b n _ s h, frameBulk_did _ b n s⟩

/-- Every other operation is refused, by the reason the spec names (10_state.md R44). -/
theorem exec_rejected (i : Instr) (s : State) (h : i.accepted = false) :
    exec i s = .refused (if i.isReserved then .reservedOp else .capacity) := by
  cases i <;> simp only [Instr.accepted, Instr.isReserved, Instr.moves, Bool.not_false, Bool.not_true, Bool.true_and, Bool.false_and,
    decide_eq_false_iff_not, Bool.true_eq_false] at h
  all_goals first
    | exact withCapacity_refused _ _ _ s h
    | rfl

/-- What exec's next state can be. -/
theorem exec_cases {i : Instr} {s t : State} (h : exec i s = .next t) :
    i.accepted = true ∧ Did s t (i.words s) (i.returns s) i.received (i.memAfter s) := by
  cases ha : i.accepted with
  | true =>
    obtain ⟨u, hu, d⟩ := exec_accepted i s ha
    rw [hu] at h; cases h; exact ⟨rfl, d⟩
  | false => rw [exec_rejected i s ha] at h; cases h

/-- What step's next state can be: nothing was requested and nothing happened, or the first request was taken and run. -/
theorem step_cases {s t : State} (h : step s = .next t) :
    (s.requests = [] ∧ t = s) ∨
    ∃ r rest, s.requests = r :: rest ∧ exec (decode s.params r) { s with requests := rest } = .next t := by
  unfold step at h
  split at h
  · next hr => cases h; exact .inl ⟨hr, rfl⟩
  · next r rest hr => exact .inr ⟨r, rest, hr, h⟩

end Sys2Proof.Machine
end

