-- ==== Sys2Proof/Laws/Observe.lean ====
section
/-! SUPPORT. What an observer reads off the actions of a word, and off any sequence of primitive calls (10_state.md R42; 30_encoding.md
R95; 40_bus_primitives.md R120 to R124). -/

namespace Sys2Proof.Machine

/-! ### Segments one after another -/

theorem countAlong_append (p : Latches → Action → Bool) (l : Latches) (t u : List Action) :
    countAlong p l (t ++ u) = countAlong p l t + countAlong p (replay l t) u := by
  induction t generalizing l with
  | nil => simp [countAlong]
  | cons a t ih => simp [countAlong, ih, Nat.add_assoc]

theorem risingEdges_append (l : Latches) (t u : List Action) :
    risingEdges l (t ++ u) = risingEdges l t + risingEdges (replay l t) u := countAlong_append _ l t u

theorem fallingEdges_append (l : Latches) (t u : List Action) :
    fallingEdges l (t ++ u) = fallingEdges l t + fallingEdges (replay l t) u := countAlong_append _ l t u

theorem csTransitions_append (l : Latches) (t u : List Action) :
    csTransitions l (t ++ u) = csTransitions l t + csTransitions (replay l t) u := countAlong_append _ l t u

@[simp] theorem samplesIn_append (t u : List Action) : samplesIn (t ++ u) = samplesIn t + samplesIn u := by simp [samplesIn]

@[simp] theorem settlesIn_append (t u : List Action) : settlesIn (t ++ u) = settlesIn t + settlesIn u := by simp [settlesIn]

theorem mosiBits_append (l : Latches) (t u : List Action) : mosiBits l (t ++ u) = mosiBits l t ++ mosiBits (replay l t) u := by
  induction t generalizing l with
  | nil => simp [mosiBits]
  | cons a t ih => simp [mosiBits, ih]

@[simp] theorem misoBits_append (t u : List Action) : misoBits (t ++ u) = misoBits t ++ misoBits u := by simp [misoBits]

theorem keepsDataSetup_append (l : Latches) (t u : List Action) :
    keepsDataSetup l (t ++ u) = (keepsDataSetup l t && keepsDataSetup (replay l t) u) := by
  induction t generalizing l with
  | nil => simp [keepsDataSetup]
  | cons a t ih => simp [keepsDataSetup, ih, Bool.and_assoc]

theorem waveform_append (l : Latches) (t u : List Action) : waveform l (t ++ u) = waveform l t ++ waveform (replay l t) u := by
  induction t generalizing l with
  | nil => simp [waveform]
  | cons a t ih => simp [waveform, ih]

/-- The bits of a word as they go over a line. -/
def wireBits (v : Byte) : List Level := (List.range 8).map (wireBit v)

theorem feed_eq (v : Byte) : feed v = wireBits v := rfl

/-- Eight wire bits of a word read back as the word (30_encoding.md R95). -/
theorem wordsOf_wireBits (v : Byte) (rest : List Level) : wordsOf (wireBits v ++ rest) = (wordsOf rest).map (v :: ·) := by
  simp [wireBits, List.range_succ, wordsOf, wordOf8_wireBit]

/-! ### One word -/

/-- A sent word shows its bits on data-out, from any latches (R120). -/
@[simp] theorem mosiBits_sendActions (l : Latches) (v : Byte) : mosiBits l (sendActions v) = wireBits v := by
  simp [sendActions, wireBits, List.range_succ, mosiBits, isRising]

/-- A received word shows zeros on data-out (R121). -/
theorem mosiBits_receiveActions (l : Latches) (f : Nat → Level) (h : l.sck = false) :
    mosiBits l (receiveActions f) = wireBits 0#8 := by
  simp [receiveActions, wireBits, wireBit, List.range_succ, mosiBits, isRising, h]

@[simp] theorem misoBits_sendActions (v : Byte) : misoBits (sendActions v) = [] := by
  simp [sendActions, List.range_succ, misoBits]

@[simp] theorem misoBits_receiveActions (r : Byte) : misoBits (receiveActions (wireBit r)) = wireBits r := by
  simp [receiveActions, wireBits, List.range_succ, misoBits]

/-- Eight rising edges whatever the clock was (R124). -/
@[simp] theorem risingEdges_sendActions (l : Latches) (v : Byte) : risingEdges l (sendActions v) = 8 := by
  simp [sendActions, List.range_succ, risingEdges, countAlong, isRising]

/-- One falling edge more if the clock was high (R124). -/
theorem fallingEdges_sendActions (l : Latches) (v : Byte) :
    fallingEdges l (sendActions v) = if l.sck then 9 else 8 := by
  cases h : l.sck <;> simp [sendActions, List.range_succ, fallingEdges, countAlong, isFalling, h]

/-- One rising edge fewer if the clock was high (R124). -/
theorem risingEdges_receiveActions (l : Latches) (f : Nat → Level) :
    risingEdges l (receiveActions f) = if l.sck then 7 else 8 := by
  cases h : l.sck <;> simp [receiveActions, List.range_succ, risingEdges, countAlong, isRising, h]

@[simp] theorem fallingEdges_receiveActions (l : Latches) (f : Nat → Level) : fallingEdges l (receiveActions f) = 8 := by
  simp [receiveActions, List.range_succ, fallingEdges, countAlong, isFalling]

@[simp] theorem csTransitions_sendActions (l : Latches) (v : Byte) : csTransitions l (sendActions v) = 0 := by
  simp [sendActions, List.range_succ, csTransitions, countAlong, isCsTransition]

@[simp] theorem csTransitions_receiveActions (l : Latches) (f : Nat → Level) : csTransitions l (receiveActions f) = 0 := by
  simp [receiveActions, List.range_succ, csTransitions, countAlong, isCsTransition]

@[simp] theorem length_sendActions (v : Byte) : (sendActions v).length = 34 := by simp [sendActions, List.range_succ]

@[simp] theorem length_receiveActions (f : Nat → Level) : (receiveActions f).length = 41 := by
  simp [receiveActions, List.range_succ]

@[simp] theorem samplesIn_sendActions (v : Byte) : samplesIn (sendActions v) = 0 := by
  simp [samplesIn, sendActions, List.range_succ, isSample]

@[simp] theorem samplesIn_receiveActions (f : Nat → Level) : samplesIn (receiveActions f) = 8 := by
  simp [samplesIn, receiveActions, List.range_succ, isSample, List.countP_cons]

@[simp] theorem settlesIn_sendActions (v : Byte) : settlesIn (sendActions v) = 8 := by
  simp [settlesIn, sendActions, List.range_succ]

@[simp] theorem settlesIn_receiveActions (f : Nat → Level) : settlesIn (receiveActions f) = 16 := by
  simp [settlesIn, receiveActions, List.range_succ]

/-- From a low clock a word keeps the data setup (20_memory.md R66). -/
theorem keepsDataSetup_sendActions (l : Latches) (v : Byte) : keepsDataSetup l (sendActions v) = true := by
  simp [sendActions, List.range_succ, keepsDataSetup, isMosiChange]

theorem keepsDataSetup_receiveActions (l : Latches) (f : Nat → Level) (h : l.sck = false) :
    keepsDataSetup l (receiveActions f) = true := by
  simp [receiveActions, List.range_succ, keepsDataSetup, isMosiChange, h]

/-- After a word the next sample has to wait for its own settle delay. -/
theorem keepsSampleSetup_sendActions (l : Latches) (b : Bool) (v : Byte) (t : List Action) :
    keepsSampleSetup l b (sendActions v ++ t) = keepsSampleSetup ⟨false, false, l.cs⟩ false t := by
  simp [sendActions, List.range_succ, keepsSampleSetup, isSample]

theorem keepsSampleSetup_receiveActions (l : Latches) (b : Bool) (f : Nat → Level) (t : List Action) :
    keepsSampleSetup l b (receiveActions f ++ t) = keepsSampleSetup ⟨false, false, l.cs⟩ false t := by
  simp [receiveActions, List.range_succ, keepsSampleSetup, isSample]

/-! ### The words of a call, and a chip-select drive as seen by each observer -/

@[simp] theorem outWords_sel (w : List Event) : (Event.sel :: w).filterMap Event.outWord = w.filterMap Event.outWord := rfl
@[simp] theorem outWords_desel (w : List Event) : (Event.desel :: w).filterMap Event.outWord = w.filterMap Event.outWord := rfl
@[simp] theorem outWords_tx (v : Byte) (w : List Event) :
    (Event.tx v :: w).filterMap Event.outWord = v :: w.filterMap Event.outWord := rfl
@[simp] theorem outWords_rx (r : Byte) (w : List Event) :
    (Event.rx r :: w).filterMap Event.outWord = 0#8 :: w.filterMap Event.outWord := rfl
@[simp] theorem inWords_sel (w : List Event) : (Event.sel :: w).filterMap Event.inWord = w.filterMap Event.inWord := rfl
@[simp] theorem inWords_desel (w : List Event) : (Event.desel :: w).filterMap Event.inWord = w.filterMap Event.inWord := rfl
@[simp] theorem inWords_tx (v : Byte) (w : List Event) : (Event.tx v :: w).filterMap Event.inWord = w.filterMap Event.inWord := rfl
@[simp] theorem inWords_rx (r : Byte) (w : List Event) :
    (Event.rx r :: w).filterMap Event.inWord = r :: w.filterMap Event.inWord := rfl

@[simp] theorem mosiBits_nil (l : Latches) : mosiBits l [] = [] := rfl
@[simp] theorem mosiBits_cs (l : Latches) (c : CsState) (t : List Action) :
    mosiBits l (.cs c :: t) = mosiBits { l with cs := c } t := rfl
@[simp] theorem misoBits_nil : misoBits [] = [] := rfl
@[simp] theorem misoBits_cs (c : CsState) (t : List Action) : misoBits (.cs c :: t) = misoBits t := rfl
@[simp] theorem risingEdges_nil (l : Latches) : risingEdges l [] = 0 := rfl
@[simp] theorem risingEdges_cs (l : Latches) (c : CsState) (t : List Action) :
    risingEdges l (.cs c :: t) = risingEdges { l with cs := c } t := by simp [risingEdges, countAlong, isRising]
@[simp] theorem fallingEdges_nil (l : Latches) : fallingEdges l [] = 0 := rfl
@[simp] theorem fallingEdges_cs (l : Latches) (c : CsState) (t : List Action) :
    fallingEdges l (.cs c :: t) = fallingEdges { l with cs := c } t := by simp [fallingEdges, countAlong, isFalling]
@[simp] theorem csTransitions_nil (l : Latches) : csTransitions l [] = 0 := rfl
@[simp] theorem csTransitions_cs (l : Latches) (c : CsState) (t : List Action) :
    csTransitions l (.cs c :: t) = (if c = l.cs then 0 else 1) + csTransitions { l with cs := c } t := by
  by_cases h : c = l.cs <;> simp [csTransitions, countAlong, isCsTransition, h]
@[simp] theorem samplesIn_nil : samplesIn [] = 0 := rfl
@[simp] theorem samplesIn_cs (c : CsState) (t : List Action) : samplesIn (.cs c :: t) = samplesIn t := by
  simp [samplesIn, isSample]
@[simp] theorem settlesIn_nil : settlesIn [] = 0 := rfl
@[simp] theorem settlesIn_cs (c : CsState) (t : List Action) : settlesIn (.cs c :: t) = settlesIn t := by
  simp [settlesIn]

/-! ### A sequence of primitive calls that starts with the clock low -/

/-- The clock stays low from call to call (40_bus_primitives.md R122). -/
theorem replay_actions_sck (e : Event) (l : Latches) (h : l.sck = false) : (replay l e.actions).sck = false := by
  cases e <;> simp [h]

theorem replay_traceOf_sck (w : List Event) (l : Latches) (h : l.sck = false) : (replay l (traceOf w)).sck = false := by
  induction w generalizing l with
  | nil => simpa
  | cons e w ih => simpa using ih _ (replay_actions_sck e l h)

/-- Data-out carries the words sent, and 0x00 while a word is received (30_encoding.md R88, R95). -/
theorem mosiWords_traceOf (w : List Event) (l : Latches) (h : l.sck = false) :
    mosiWords l (traceOf w) = some (w.filterMap Event.outWord) := by
  unfold mosiWords
  induction w generalizing l with
  | nil => simp [wordsOf]
  | cons e w ih =>
    have ih' := ih _ (replay_actions_sck e l h)
    cases e <;> simp [mosiBits_append, mosiBits_receiveActions _ _ h, wordsOf_wireBits] at ih' ⊢ <;> simp [ih']

/-- Data-in is read as the words received (R121). -/
theorem misoWords_traceOf (w : List Event) : misoWords (traceOf w) = some (w.filterMap Event.inWord) := by
  unfold misoWords
  induction w with
  | nil => simp [wordsOf]
  | cons e w ih => cases e <;> simp [wordsOf_wireBits, ih]

/-- Eight rising edges a word (R122). -/
theorem risingEdges_traceOf (w : List Event) (l : Latches) (h : l.sck = false) :
    risingEdges l (traceOf w) = 8 * (w.filterMap Event.outWord).length := by
  induction w generalizing l with
  | nil => simp
  | cons e w ih =>
    have ih' := ih _ (replay_actions_sck e l h)
    cases e <;> simp [risingEdges_append, risingEdges_receiveActions, h] at ih' ⊢ <;> omega

/-- Eight falling edges a word. -/
theorem fallingEdges_traceOf (w : List Event) (l : Latches) (h : l.sck = false) :
    fallingEdges l (traceOf w) = 8 * (w.filterMap Event.outWord).length := by
  induction w generalizing l with
  | nil => simp
  | cons e w ih =>
    have ih' := ih _ (replay_actions_sck e l h)
    cases e <;> simp [fallingEdges_append, fallingEdges_sendActions, h] at ih' ⊢ <;> omega

/-- Data-out changes only while the clock is low (70_reset_and_hazards.md R232). -/
theorem keepsDataSetup_traceOf (w : List Event) (l : Latches) (h : l.sck = false) : keepsDataSetup l (traceOf w) = true := by
  induction w generalizing l with
  | nil => simp [keepsDataSetup]
  | cons e w ih =>
    have ih' := ih _ (replay_actions_sck e l h)
    rw [traceOf_cons, keepsDataSetup_append, ih', Bool.and_true]
    cases e
    · simp [keepsDataSetup, isMosiChange]
    · simp [keepsDataSetup, isMosiChange]
    · exact keepsDataSetup_sendActions _ _
    · exact keepsDataSetup_receiveActions _ _ h

/-- A sample is taken only in a settled high phase (R232). -/
theorem keepsSampleSetup_traceOf (w : List Event) (l : Latches) (h : l.sck = false) :
    keepsSampleSetup l false (traceOf w) = true := by
  induction w generalizing l with
  | nil => simp [keepsSampleSetup]
  | cons e w ih =>
    cases e
    · have ih' := ih { l with cs := .active } h
      simpa [keepsSampleSetup, isSample] using ih'
    · have ih' := ih { l with cs := .inactive } h
      simpa [keepsSampleSetup, isSample] using ih'
    · rw [traceOf_cons, actions_tx, keepsSampleSetup_sendActions]; exact ih _ rfl
    · rw [traceOf_cons, actions_rx, keepsSampleSetup_receiveActions]; exact ih _ rfl

/-! ### Counts of a sequence of words (40_bus_primitives.md R125; 42_payload_and_address.md R172) -/

/-- The words of a transaction that are sent leave the lines low and have these counts, whatever the latches were. -/
theorem sent_counts (vs : List Byte) (l : Latches) :
    (traceOf (vs.map Event.tx)).length = 34 * vs.length ∧ risingEdges l (traceOf (vs.map Event.tx)) = 8 * vs.length ∧
    samplesIn (traceOf (vs.map Event.tx)) = 0 ∧ settlesIn (traceOf (vs.map Event.tx)) = 8 * vs.length ∧
    csTransitions l (traceOf (vs.map Event.tx)) = 0 := by
  induction vs generalizing l with
  | nil => simp
  | cons v vs ih =>
    obtain ⟨h1, h2, h3, h4, h5⟩ := ih ⟨false, false, l.cs⟩
    simp [risingEdges_append, csTransitions_append, h1, h2, h3, h4, h5]; omega

/-- The words received, from a low clock. -/
theorem received_counts (rs : List Byte) (l : Latches) (h : l.sck = false) :
    (traceOf (rs.map Event.rx)).length = 41 * rs.length ∧ risingEdges l (traceOf (rs.map Event.rx)) = 8 * rs.length ∧
    samplesIn (traceOf (rs.map Event.rx)) = 8 * rs.length ∧ settlesIn (traceOf (rs.map Event.rx)) = 16 * rs.length ∧
    csTransitions l (traceOf (rs.map Event.rx)) = 0 := by
  induction rs generalizing l with
  | nil => simp
  | cons r rs ih =>
    obtain ⟨h1, h2, h3, h4, h5⟩ := ih ⟨false, false, l.cs⟩ rfl
    simp [risingEdges_append, csTransitions_append, risingEdges_receiveActions, h, h1, h2, h3, h4, h5]; omega

end Sys2Proof.Machine
end

