-- ==== Sys2Proof/Laws/Doubles.lean ====
section
/-! SUPPORT. What a chip model sees of a session, word by word (20_memory.md R71; 95_test_vectors.md part 2). -/

namespace Sys2Proof.Machine

/-- Two segments with one waveform leave a chip in one state: it sees nothing else (R71, 10_state.md R42). -/
theorem Chip.after_of_waveform {σ : Type} (c : Chip σ) (e : σ) (l : Latches) (t u : List Action) (h : waveform l t = waveform l u) :
    c.after e l t = c.after e l u := by simp [Chip.after, h]

@[simp] theorem Chip.after_nil {σ : Type} (c : Chip σ) (e : σ) (l : Latches) : c.after e l [] = e := rfl

/-- A drive shows the chip the waveform's next point. -/
theorem Chip.after_drive {σ : Type} (c : Chip σ) (e : σ) (l : Latches) (a : Action) (h : isDrive a = true) :
    c.after e l [a] = c.observe e l (l.apply a) := by simp [Chip.after, waveform, h, Chip.along]

/-- A settle and a sample show the chip nothing. -/
theorem Chip.after_unseen {σ : Type} (c : Chip σ) (e : σ) (l : Latches) (a : Action) (h : isDrive a = false) : c.after e l [a] = e := by
  simp [Chip.after, waveform, h, Chip.along]

theorem Chip.after_cons {σ : Type} (c : Chip σ) (e : σ) (l : Latches) (a : Action) (t : List Action) :
    c.after e l (a :: t) = c.after (c.after e l [a]) (l.apply a) t := by cases a <;> rfl

/-- A chip sees one segment after another. -/
theorem Chip.after_append {σ : Type} (c : Chip σ) (e : σ) (l : Latches) (t u : List Action) :
    c.after e l (t ++ u) = c.after (c.after e l t) (replay l t) u := by
  induction t generalizing e l with
  | nil => rfl
  | cons a t ih => rw [List.cons_append, Chip.after_cons, ih, c.after_cons e l a t, replay_cons]

theorem Chip.agrees_append {σ : Type} (c : Chip σ) (e : σ) (l : Latches) (t u : List Action) :
    c.agrees e l (t ++ u) = (c.agrees e l t && c.agrees (c.after e l t) (replay l t) u) := by
  induction t generalizing e l with
  | nil => simp [Chip.agrees]
  | cons a t ih => simp [Chip.agrees, ih, Bool.and_assoc, c.after_cons e l a t]

/-- Eight bits shifted in from 0 are the word. -/
theorem shiftIn (v : Byte) :
    ((List.range 8).foldl (fun (acc : Byte) k => (acc <<< 1) ||| (if wireBit v k then 1#8 else 0#8)) 0#8) = v :=
  wordOfBits_wireBit v

/-- One bit frame of an incoming word (30_encoding.md R80). -/
def inFrame (b : Level) : List Action := [.sck true, .settle, .sample b, .sck false, .settle]

theorem receiveActions_frames (f : Nat → Level) : receiveActions f = .mosi false :: ((List.range 8).map f).flatMap inFrame := by
  simp [receiveActions, inFrame, List.range_succ]

@[simp] theorem replay_inFrame (l : Latches) (b : Level) : replay l (inFrame b) = { l with sck := false } := by
  simp [inFrame]

/-- What is taken after one bit frame of a received word: a 0, and the word is complete after the eighth. -/
def Taken.next (k : Nat) (ws : List Byte) : Taken := if k = 7 then ⟨0#8, 0, ws ++ [0#8]⟩ else ⟨0#8, k + 1, ws⟩

/-- At the sample of the k-th bit frame of a word the chip has taken that frame's bit. -/
theorem Taken.next_place (k : Nat) (ws : List Byte) (h : k < 8) : (Taken.next k ws).word = ws.length ∧ (Taken.next k ws).bit = k := by
  unfold Taken.next; split <;> constructor <;> simp [Taken.word, Taken.bit, Taken.count] <;> omega

/-- A drive of data-out alone makes no edge and no chip-select transition: nothing is taken. -/
@[simp] theorem Taken.observe_mosi (k : Taken) (l : Latches) (b : Level) : k.observe l { l with mosi := b } = k := by
  cases h : l.cs <;> cases hs : l.sck <;> simp [Taken.observe, activates, clocksBit, h, hs]

/-! ### The echo chip -/

/-- The echo chip is unmoved by data-out alone. -/
@[simp] theorem echo_mosi (p : Params) (e : Echo) (l : Latches) (b : Level) : (echo p).after e l [.mosi b] = e := by
  rw [Chip.after_drive _ _ _ _ rfl]; simp [echo, Latches.apply]

/-- The echo chip files a sent word. -/
theorem echo_send (p : Params) (st : Byte → Byte) (ws : List Byte) (l : Latches) (v : Byte) (h : l.cs = .active) :
    (echo p).after ⟨st, ⟨0#8, 0, ws⟩⟩ l (sendActions v) = ⟨echoStore p st (ws ++ [v]), ⟨0#8, 0, ws ++ [v]⟩⟩ := by
  have hv := shiftIn v
  simp [List.range_succ] at hv
  simp [echo, sendActions, List.range_succ, Chip.after, Chip.along, waveform, isDrive, Taken.observe, activates, clocksBit, h, hv]

/-- Activating chip-select starts a session for the echo chip; its store stays. -/
theorem echo_cs (p : Params) (e : Echo) (l : Latches) (c : CsState) :
    (echo p).after e l [.cs c] = ⟨e.store, if l.cs = .inactive ∧ c = .active then ⟨0#8, 0, []⟩ else e.taken⟩ := by
  cases hc : l.cs <;> cases c <;>
    simp [echo, Chip.after, Chip.along, waveform, isDrive, Taken.observe, activates, clocksBit, hc, echoStore]

/-- While a read is under way each sample is answered with the next bit of the register read, and the store stays. -/
theorem echo_inFrame (p : Params) (st : Byte → Byte) (c : Byte) (k : Nat) (l : Latches) (b : Level) (hk : k < 8)
    (hc : echoWrites p c = false) (h : l.cs = .active) (hs : l.sck = false) (hm : l.mosi = false) :
    (echo p).agrees ⟨st, ⟨0#8, k, [c]⟩⟩ l (inFrame b) = (b == wireBit (st c) k) ∧
    (echo p).after ⟨st, ⟨0#8, k, [c]⟩⟩ l (inFrame b) = ⟨st, Taken.next k [c]⟩ := by
  obtain ⟨hw, hb⟩ := Taken.next_place k [c] hk
  by_cases h7 : k = 7
  · subst h7
    constructor <;> simp [echo, inFrame, Chip.after, Chip.along, waveform, isDrive, Chip.agrees, agreesAt, Taken.observe, activates,
      clocksBit, Taken.next, Taken.word, Taken.bit, Taken.count, h, hs, hm, hc, echoStore]
  · simp [Taken.next, h7] at hw hb
    constructor <;> simp [echo, inFrame, Chip.after, Chip.along, waveform, isDrive, Chip.agrees, agreesAt, Taken.observe, activates,
      clocksBit, Taken.next, hw, hb, h, hs, hm, hc, h7]

/-! ### The payload chip -/

/-- The payload chip is unmoved by data-out alone. -/
@[simp] theorem pay_mosi (p : Params) (e : Pay) (l : Latches) (b : Level) : (pay p).after e l [.mosi b] = e := by
  have h : deactivates l { l with mosi := b } = false := by cases h : l.cs <;> simp [deactivates, h]
  rw [Chip.after_drive _ _ _ _ rfl]; simp [pay, Latches.apply, h]

/-- The payload chip takes a sent word. -/
theorem pay_send (p : Params) (pl ws : List Byte) (l : Latches) (v : Byte) (h : l.cs = .active) :
    (pay p).after ⟨pl, ⟨0#8, 0, ws⟩⟩ l (sendActions v) = ⟨pl, ⟨0#8, 0, ws ++ [v]⟩⟩ := by
  have hv := shiftIn v
  simp [List.range_succ] at hv
  simp [pay, sendActions, List.range_succ, Chip.after, Chip.along, waveform, isDrive, Taken.observe, activates, deactivates, clocksBit,
    h, hv]

/-- Activating chip-select starts a session for the payload chip. -/
theorem pay_select (p : Params) (e : Pay) (l : Latches) (h : l.cs = .inactive) :
    (pay p).after e l [.cs .active] = ⟨e.pl, ⟨0#8, 0, []⟩⟩ := by
  simp [pay, Chip.after, Chip.along, waveform, isDrive, Taken.observe, activates, deactivates, h]

/-- Closing a session that began with `W_TX_PAYLOAD_OP` stores its following words. -/
theorem pay_deselect (p : Params) (pl : List Byte) (c : Byte) (ws : List Byte) (l : Latches) (h : l.cs = .active) :
    (pay p).after ⟨pl, ⟨0#8, 0, c :: ws⟩⟩ l [.cs .inactive] = ⟨if c = p.wTxPayloadOp then ws else pl, ⟨0#8, 0, c :: ws⟩⟩ := by
  simp [pay, Chip.after, Chip.along, waveform, isDrive, Taken.observe, activates, deactivates, clocksBit, h]

/-- One bit frame of the i-th word after `R_RX_PAYLOAD_OP`, i being how many went before it: the sample agrees with bit k of `pl[i]`
where there is one, and the stored payload stays. -/
theorem pay_inFrame (p : Params) (pl ws : List Byte) (k : Nat) (l : Latches) (b : Level) (hk : k < 8)
    (h : l.cs = .active) (hs : l.sck = false) (hm : l.mosi = false) :
    (pay p).agrees ⟨pl, ⟨0#8, k, p.rRxPayloadOp :: ws⟩⟩ l (inFrame b) =
      agreesAt ((pl[ws.length]?).map (fun w => wireBit w k)) (.sample b) ∧
    (pay p).after ⟨pl, ⟨0#8, k, p.rRxPayloadOp :: ws⟩⟩ l (inFrame b) = ⟨pl, Taken.next k (p.rRxPayloadOp :: ws)⟩ := by
  obtain ⟨hw, hb⟩ := Taken.next_place k (p.rRxPayloadOp :: ws) hk
  by_cases h7 : k = 7
  · simp [Taken.next, h7] at hw hb
    constructor <;> simp [pay, inFrame, Chip.after, Chip.along, waveform, isDrive, Chip.agrees, agreesAt, Taken.observe, activates,
      deactivates, clocksBit, Taken.next, hw, hb, h, hs, hm, h7]
  · simp [Taken.next, h7] at hw hb
    constructor <;> simp [pay, inFrame, Chip.after, Chip.along, waveform, isDrive, Chip.agrees, agreesAt, Taken.observe, activates,
      deactivates, clocksBit, Taken.next, hw, hb, h, hs, hm, h7]

end Sys2Proof.Machine
end

