-- ==== Sys2Proof/Laws/PerInstr.lean ====
section
/-! SUPPORT. One family of per-instruction facts about syntax: an encoded instruction is in its own row of the opcode table
(30_encoding.md R92, R93). -/

namespace Sys2Proof

/-- The three fields of a word put together from them. -/
theorem fields_append (o : BitVec 4) (a b : BitVec 8) :
    (o ++ a ++ b).extractLsb' 16 4 = o ∧ (o ++ a ++ b).extractLsb' 8 8 = a ∧ (o ++ a ++ b).extractLsb' 0 8 = b := by
  refine ⟨?_, ?_, BitVec.extractLsb'_append_eq_right⟩ <;> ext i hi <;> rw [BitVec.getElem_extractLsb', BitVec.getLsbD_append]
  · rw [if_neg (by omega), BitVec.getLsbD_append, if_neg (by omega), BitVec.getLsbD_eq_getElem (by omega)]
    congr 1; omega
  · rw [if_neg (by omega), BitVec.getLsbD_append, if_pos (by omega), BitVec.getLsbD_eq_getElem (by omega)]
    congr 1; omega

/-- Reading `OP` back (R91). -/
@[simp] theorem hreqOp_hreqWord (op a b : Nat) : hreqOp (hreqWord op a b) = op % 16 := by
  simp [hreqOp, hreqWord, fields_append]

/-- Reading `A` back (R91). -/
@[simp] theorem hreqA_hreqWord (op a b : Nat) : hreqA (hreqWord op a b) = a % 256 := by
  simp [hreqA, hreqWord, fields_append]

/-- Reading `B` back (R91). -/
@[simp] theorem hreqB_hreqWord (op a b : Nat) : hreqB (hreqWord op a b) = b % 256 := by
  simp [hreqB, hreqWord, fields_append]

/-- The operation code of an instruction's row (R92); a `WIRE_CMD` row has none. -/
def Instr.tableOp : Instr → Option Nat
  | .select => some 0x0
  | .deselect => some 0x1
  | .sendByte _ => some 0x2
  | .sendZeroReceiveByte => some 0x3
  | .writeRegister _ _ => some 0x4
  | .readRegister _ => some 0x5
  | .command _ => some 0x6
  | .readPayload _ _ => some 0x7
  | .writePayload _ _ => some 0x8
  | .writeAddressRx0 _ => some 0x9
  | .writeAddressTx _ => some 0xA
  | .writeRegistersBulk _ _ => some 0xB
  | .reservedC => some 0xC
  | .reservedD => some 0xD
  | .reservedE => some 0xE
  | .reservedF => some 0xF
  | .wireWriteRegister _ _ => none
  | .wireReadRegister _ => none
  | .wireCommand _ => none
  | .wireReadPayload _ _ => none
  | .wireWritePayload _ _ => none
  | .wireWriteAddressRx0 _ => none
  | .wireWriteAddressTx _ => none
  | .wireWriteRegistersBulk _ _ => none

/-- The operation code a request's bits hold. -/
def Code.opField : Code → Option Nat
  | .hreq w => some (hreqOp w)
  | .wire _ => none

/-- The encoded instruction holds its own row's operation code. -/
def Laws.EncodesRow.Statement (i : Instr) : Prop := ∀ p : Params, (encode p i).code.opField = i.tableOp

namespace Laws.EncodesRow

theorem select : Statement .select := fun _ => by
  simp [encode, Request.plain, Code.opField, Instr.tableOp]
theorem deselect : Statement .deselect := fun _ => by
  simp [encode, Request.plain, Code.opField, Instr.tableOp]
theorem sendByte (value : Nat) : Statement (.sendByte value) := fun _ => by
  simp [encode, Request.plain, Code.opField, Instr.tableOp]
theorem sendZeroReceiveByte : Statement .sendZeroReceiveByte := fun _ => by
  simp [encode, Request.plain, Code.opField, Instr.tableOp]
theorem writeRegister (reg value : Nat) : Statement (.writeRegister reg value) := fun _ => by
  simp [encode, Request.plain, Code.opField, Instr.tableOp]
theorem readRegister (reg : Nat) : Statement (.readRegister reg) := fun _ => by
  simp [encode, Request.plain, Code.opField, Instr.tableOp]
theorem command (opcode : Nat) : Statement (.command opcode) := fun _ => by
  simp [encode, Request.plain, Code.opField, Instr.tableOp]
theorem readPayload (buf : BufRef) (size : Nat) : Statement (.readPayload buf size) := fun _ => by
  simp [encode, Code.opField, Instr.tableOp]
theorem writePayload (buf : BufRef) (size : Nat) : Statement (.writePayload buf size) := fun _ => by
  simp [encode, Code.opField, Instr.tableOp]
theorem writeAddressRx0 (buf : BufRef) : Statement (.writeAddressRx0 buf) := fun _ => by
  simp [encode, Code.opField, Instr.tableOp]
theorem writeAddressTx (buf : BufRef) : Statement (.writeAddressTx buf) := fun _ => by
  simp [encode, Code.opField, Instr.tableOp]
theorem writeRegistersBulk (buf : BufRef) (size : Nat) : Statement (.writeRegistersBulk buf size) := fun _ => by
  simp [encode, Code.opField, Instr.tableOp]
theorem reservedC : Statement .reservedC := fun _ => by
  simp [encode, Request.plain, Code.opField, Instr.tableOp]
theorem reservedD : Statement .reservedD := fun _ => by
  simp [encode, Request.plain, Code.opField, Instr.tableOp]
theorem reservedE : Statement .reservedE := fun _ => by
  simp [encode, Request.plain, Code.opField, Instr.tableOp]
theorem reservedF : Statement .reservedF := fun _ => by
  simp [encode, Request.plain, Code.opField, Instr.tableOp]
theorem wireWriteRegister (reg : Byte) (value : Nat) : Statement (.wireWriteRegister reg value) := fun _ => rfl
theorem wireReadRegister (reg : Byte) : Statement (.wireReadRegister reg) := fun _ => rfl
theorem wireCommand (opcode : Byte) : Statement (.wireCommand opcode) := fun _ => rfl
theorem wireReadPayload (buf : BufRef) (size : Nat) : Statement (.wireReadPayload buf size) := fun _ => rfl
theorem wireWritePayload (buf : BufRef) (size : Nat) : Statement (.wireWritePayload buf size) := fun _ => rfl
theorem wireWriteAddressRx0 (buf : BufRef) : Statement (.wireWriteAddressRx0 buf) := fun _ => rfl
theorem wireWriteAddressTx (buf : BufRef) : Statement (.wireWriteAddressTx buf) := fun _ => rfl
theorem wireWriteRegistersBulk (buf : BufRef) (size : Nat) : Statement (.wireWriteRegistersBulk buf size) := fun _ => rfl

end Laws.EncodesRow

end Sys2Proof
end

