-- ==== Sys2Proof/Tests/Slice0.lean ====
section
/-! SUPPORT. The model's own tests: expected values from 95_test_vectors.md; ill-formed terms; and for every obligation with
hypotheses a concrete state and operands that meet them. -/

namespace Sys2Proof.Tests

open Sys2Proof Sys2Proof.Machine

/-! ### Small states -/

/-- `REF` (00_scope.md R12), no settle delay, sizes unbounded. -/
def ref : Params := ⟨0x20#8, 0x61#8, 0xA0#8, 0x0A#8, 0x10#8, 0x1F#8, 0, .bitbang, false, none⟩

/-- `ALT` of 95_test_vectors.md. -/
def alt : Params := { ref with wRegisterBit := 0x80#8, readAddrMask := 0x3F#8 }

/-- `Idle` under `REF`, with data-out low. -/
def idle : State := { State.reset with params := ref }

/-- `idle` with the words the chip will present next. -/
def fed (ws : List Byte) : State := { idle with miso := ws.flatMap feed }

/-- `idle` with the clock left high: the broken idle contract (40_bus_primitives.md R124). -/
def clockHigh : State := { idle with latches := ⟨true, false, .inactive⟩ }

/-- `idle` with the chip selected. -/
def selected : State := { idle with latches := ⟨false, false, .active⟩ }

/-- `idle` on an external bus. -/
def ext : State := { idle with params := { ref with busImpl := .external } }

/-- Five bytes at addresses 16 to 20. -/
def addressMem : Memory := [(16, 0x11#8), (17, 0x22#8), (18, 0x33#8), (19, 0x44#8), (20, 0x55#8)]

/-- `idle` with those bytes. -/
def withAddress : State := { idle with mem := addressMem }

/-- A buffer on them. -/
def buf5 : BufRef := ⟨16, 5⟩

/-- What an outcome's next state satisfies; false of a fault and of a refusal. -/
def nextHolds (o : Host.Outcome State Fault Refusal) (f : State → Bool) : Bool :=
  match o with
  | .next t => f t
  | .fault _ => false
  | .refused _ => false

/-- Whether an outcome is this refusal. -/
def refusesAs (o : Host.Outcome State Fault Refusal) (r : Refusal) : Bool :=
  match o with
  | .next _ => false
  | .fault _ => false
  | .refused q => decide (q = r)

/-- The short form `c0 d<b> c1 s` of 00_scope.md R17. -/
def outFrame (b : Level) : List Action := [.sck false, .mosi b, .sck true, .settle]

/-- The short form `c1 s m<b> c0 s`. -/
def inFrameOf (b : Level) : List Action := [.sck true, .settle, .sample b, .sck false, .settle]

/-! ### The bus primitives (95_test_vectors.md 3.1) -/

theorem test_select_from_inactive :
    nextHolds (exec .select idle) (fun t => t.lt = [.cs .active] && t.latches.cs = .active) = true := by decide
theorem test_select_from_active_is_recorded :
    nextHolds (exec .select selected) (fun t => t.lt = [.cs .active] && csTransitions selected.latches t.lt = 0) = true := by decide
theorem test_deselect_from_active :
    nextHolds (exec .deselect selected) (fun t => t.lt = [.cs .inactive] && t.latches.cs = .inactive) = true := by decide
theorem test_deselect_from_inactive_no_transition :
    nextHolds (exec .deselect idle) (fun t => t.wt = [.desel] && csTransitions idle.latches t.lt = 0) = true := by decide
/-- 0x80 goes out most-significant bit first; the tail drives data-out low. -/
theorem test_send_byte_msb_first :
    nextHolds (exec (.sendByte 0x80) idle) (fun t => t.lt = outFrame true ++ outFrame false ++ outFrame false ++ outFrame false ++
      outFrame false ++ outFrame false ++ outFrame false ++ outFrame false ++ [.sck false, .mosi false]) = true := by decide
/-- 0x1A5 is cut to 0xA5; from a high clock there are 8 rising and 9 falling edges. -/
theorem test_send_byte_cut_from_high_clock :
    nextHolds (exec (.sendByte 0x1A5) clockHigh) (fun t => t.wt = [.tx 0xA5#8] && mosiWords clockHigh.latches t.lt = some [0xA5#8] &&
      risingEdges clockHigh.latches t.lt = 8 && fallingEdges clockHigh.latches t.lt = 9) = true := by decide
theorem test_receive_byte_list :
    nextHolds (exec .sendZeroReceiveByte { idle with miso := [true, true, false, false, false, false, true, true] })
      (fun t => t.result = some 0xC3#8 && t.lt = [.mosi false] ++ inFrameOf true ++ inFrameOf true ++ inFrameOf false ++
        inFrameOf false ++ inFrameOf false ++ inFrameOf false ++ inFrameOf true ++ inFrameOf true) = true := by decide
/-- The same draws from a high clock: 0xC3 again, and only 7 rising edges. -/
theorem test_receive_byte_from_high_clock :
    nextHolds (exec .sendZeroReceiveByte { clockHigh with miso := [true, true, false, false, false, false, true, true] })
      (fun t => t.result = some 0xC3#8 && risingEdges clockHigh.latches t.lt = 7 && fallingEdges clockHigh.latches t.lt = 8) = true := by
  decide

/-! ### The register framers (95_test_vectors.md 3.2, 3.3) -/

theorem test_write_register_ref :
    nextHolds (exec (.writeRegister 0x7F 0xA5) idle)
      (fun t => t.wt = [.sel, .tx 0x3F#8, .tx 0xA5#8, .desel] && t.lt.length = 70 && t.latches = ⟨false, false, .inactive⟩) = true := by
  decide
theorem test_write_register_alt :
    nextHolds (exec (.writeRegister 0x25 0x00) { idle with params := alt })
      (fun t => t.wt = [.sel, .tx 0xA5#8, .tx 0x00#8, .desel]) = true := by decide
theorem test_read_register_ref :
    nextHolds (exec (.readRegister 0x07) (fed [0x0E#8])) (fun t => t.result = some 0x0E#8 &&
      t.wt = [.sel, .tx 0x07#8, .rx 0x0E#8, .desel] && mosiWords idle.latches t.lt = some [0x07#8, 0x00#8]) = true := by decide
theorem test_read_register_masked :
    nextHolds (exec (.readRegister 0xFF) (fed [0x55#8])) (fun t => t.result = some 0x55#8 &&
      t.wt = [.sel, .tx 0x1F#8, .rx 0x55#8, .desel] && t.lt.length = 77) = true := by decide
theorem test_command_raw :
    nextHolds (exec (.command 0xE1) idle) (fun t => t.wt = [.sel, .tx 0xE1#8, .desel] && t.lt.length = 36) = true := by decide

/-! ### The buffer framers (95_test_vectors.md 3.4) -/

set_option maxRecDepth 4096 in
theorem test_read_payload_stores :
    nextHolds (exec (.readPayload ⟨16, 4⟩ 2) { fed [0xDE#8, 0xAD#8] with mem := [(19, 0x77#8)] })
      (fun t => t.mem = [(16, 0xDE#8), (17, 0xAD#8), (19, 0x77#8)] && t.lt.length = 118) = true := by decide
theorem test_read_payload_short_buffer : refusesAs (exec (.readPayload ⟨16, 1⟩ 2) idle) .capacity = true := by decide
set_option maxRecDepth 4096 in
theorem test_write_payload_in_order :
    nextHolds (exec (.writePayload ⟨16, 3⟩ 3) { idle with mem := [(16, 0x01#8), (17, 0x02#8), (18, 0x03#8)] })
      (fun t => t.wt = [.sel, .tx 0xA0#8, .tx 0x01#8, .tx 0x02#8, .tx 0x03#8, .desel] && t.lt.length = 138) = true := by decide
theorem test_write_payload_zero : nextHolds (exec (.writePayload ⟨16, 0⟩ 0) idle) (fun t => t.wt = [.sel, .tx 0xA0#8, .desel]) = true := by
  decide
set_option maxRecDepth 4096 in
/-- The source's own byte-level example (S8). -/
theorem test_write_address_rx0 :
    nextHolds (exec (.writeAddressRx0 buf5) withAddress) (fun t => t.lt.length = 206 &&
      t.wt = [.sel, .tx 0x2A#8, .tx 0x11#8, .tx 0x22#8, .tx 0x33#8, .tx 0x44#8, .tx 0x55#8, .desel]) = true := by decide
theorem test_write_address_rx0_alt :
    nextHolds (exec (.writeAddressRx0 buf5) { withAddress with params := alt }) (fun t => t.wt.take 2 = [.sel, .tx 0x8A#8]) = true := by
  decide
/-- Elements 5 and 6 of a longer buffer are not sent. -/
theorem test_write_address_tx_long_buffer :
    nextHolds (exec (.writeAddressTx ⟨16, 7⟩) { idle with mem := addressMem ++ [(21, 0x66#8), (22, 0x77#8)] })
      (fun t => t.wt = [.sel, .tx 0x30#8, .tx 0x11#8, .tx 0x22#8, .tx 0x33#8, .tx 0x44#8, .tx 0x55#8, .desel]) = true := by decide
theorem test_write_address_tx_short_buffer : refusesAs (exec (.writeAddressTx ⟨16, 4⟩) withAddress) .capacity = true := by decide
theorem test_bulk_two_words :
    nextHolds (exec (.writeRegistersBulk ⟨16, 2⟩ 2) { idle with mem := [(16, 0x25#8), (17, 0x0F#8)] })
      (fun t => t.wt = [.sel, .tx 0x25#8, .tx 0x0F#8, .desel] && t.lt.length = 70) = true := by decide
theorem test_bulk_empty :
    nextHolds (exec (.writeRegistersBulk ⟨16, 0⟩ 0) clockHigh)
      (fun t => t.lt = [.cs .active, .cs .inactive] && t.latches = ⟨true, false, .inactive⟩) = true := by decide

/-! ### Reserved codes and wire rows -/

theorem test_reserved_c : refusesAs (exec .reservedC idle) .reservedOp = true := by decide
theorem test_reserved_d : refusesAs (exec .reservedD idle) .reservedOp = true := by decide
theorem test_reserved_e : refusesAs (exec .reservedE idle) .reservedOp = true := by decide
theorem test_reserved_f : refusesAs (exec .reservedF idle) .reservedOp = true := by decide
theorem test_wire_write_register :
    nextHolds (exec (.wireWriteRegister 0x05#8 0x0F) idle) (fun t => t.wt = [.sel, .tx 0x25#8, .tx 0x0F#8, .desel]) = true := by decide
theorem test_wire_read_register :
    nextHolds (exec (.wireReadRegister 0x07#8) (fed [0x0E#8]))
      (fun t => t.wt = [.sel, .tx 0x07#8, .rx 0x0E#8, .desel] && t.result = some 0x0E#8) = true := by decide
theorem test_wire_command :
    nextHolds (exec (.wireCommand 0xE1#8) idle) (fun t => t.wt = [.sel, .tx 0xE1#8, .desel]) = true := by decide
theorem test_wire_read_payload :
    nextHolds (exec (.wireReadPayload ⟨16, 4⟩ 1) (fed [0xDE#8]))
      (fun t => t.mem = [(16, 0xDE#8)] && t.wt.take 2 = [.sel, .tx 0x61#8]) = true := by decide
theorem test_wire_write_payload :
    nextHolds (exec (.wireWritePayload ⟨16, 5⟩ 1) withAddress) (fun t => t.wt = [.sel, .tx 0xA0#8, .tx 0x11#8, .desel]) = true := by decide
theorem test_wire_write_address_rx0 :
    nextHolds (exec (.wireWriteAddressRx0 buf5) withAddress) (fun t => t.wt.take 3 = [.sel, .tx 0x2A#8, .tx 0x11#8]) = true := by decide
theorem test_wire_write_address_tx :
    nextHolds (exec (.wireWriteAddressTx buf5) withAddress) (fun t => t.wt.take 3 = [.sel, .tx 0x30#8, .tx 0x11#8]) = true := by decide
theorem test_wire_bulk :
    nextHolds (exec (.wireWriteRegistersBulk buf5 2) withAddress) (fun t => t.wt = [.sel, .tx 0x11#8, .tx 0x22#8, .desel]) = true := by
  decide

/-! ### Decoding: words written out from the encodings (95_test_vectors.md 3.5, 3.2) -/

theorem test_decode_select : decodeTableWord 24 0b00000000000000000000 = some .select := by decide
theorem test_decode_deselect : decodeTableWord 24 0b00010000000000000000 = some .deselect := by decide
theorem test_decode_send_byte : decodeTableWord 24 0b00101010010100000000 = some (.sendByte 0xA5) := by decide
theorem test_decode_send_byte_ignores_b : decodeTableWord 24 0b00101010010111111111 = some (.sendByte 0xA5) := by decide
theorem test_decode_receive_byte : decodeTableWord 24 0b00110000000000000000 = some .sendZeroReceiveByte := by decide
theorem test_decode_write_register : decodeTableWord 24 0b01000111111110100101 = some (.writeRegister 0x7F 0xA5) := by decide
theorem test_decode_read_register : decodeTableWord 24 0b01010000011100000000 = some (.readRegister 0x07) := by decide
theorem test_decode_command : decodeTableWord 24 0b01101110000100000000 = some (.command 0xE1) := by decide
theorem test_decode_read_payload : decodeTableWord 24 0b01110000000000000000 = some (.readPayload ⟨0, 5⟩ 0) := by decide
theorem test_decode_write_payload : decodeTableWord 24 0b10000000000000000000 = some (.writePayload ⟨0, 5⟩ 0) := by decide
theorem test_decode_write_address_rx0 : decodeTableWord 24 0b10010000000000000000 = some (.writeAddressRx0 ⟨0, 5⟩) := by decide
theorem test_decode_write_address_tx : decodeTableWord 24 0b10100000000000000000 = some (.writeAddressTx ⟨0, 5⟩) := by decide
theorem test_decode_bulk : decodeTableWord 24 0b10110000000000000000 = some (.writeRegistersBulk ⟨0, 5⟩ 0) := by decide
theorem test_decode_reserved_c : decodeTableWord 24 0xC0000 = some .reservedC := by decide
theorem test_decode_reserved_d : decodeTableWord 24 0xD1234 = some .reservedD := by decide
theorem test_decode_reserved_e : decodeTableWord 24 0xE0000 = some .reservedE := by decide
theorem test_decode_reserved_f : decodeTableWord 24 0xFFFFF = some .reservedF := by decide
theorem test_decode_wire_write_register : decodeTableWord 8 0b00100101 = some (.wireWriteRegister 0x05#8 0) := by decide
theorem test_decode_wire_read_register : decodeTableWord 8 0b00000111 = some (.wireReadRegister 0x07#8) := by decide
theorem test_decode_wire_command : decodeTableWord 8 0b11100001 = some (.wireCommand 0xE1#8) := by decide
theorem test_decode_wire_read_payload : decodeTableWord 8 0b01100001 = some (.wireReadPayload ⟨0, 5⟩ 0) := by decide
theorem test_decode_wire_write_payload : decodeTableWord 8 0b10100000 = some (.wireWritePayload ⟨0, 5⟩ 0) := by decide
theorem test_decode_wire_write_address_rx0 : decodeTableWord 8 0b00101010 = some (.wireWriteAddressRx0 ⟨0, 5⟩) := by decide
theorem test_decode_wire_write_address_tx : decodeTableWord 8 0b00110000 = some (.wireWriteAddressTx ⟨0, 5⟩) := by decide
theorem test_decode_wire_bulk : decodeTableWord 0 0 = some (.wireWriteRegistersBulk ⟨0, 5⟩ 0) := by decide
/-- 2 bytes are no code, and neither is an `HREQ` with a bit above bit 19. -/
theorem test_decode_refuses : decodeTableWord 16 0 = none ∧ decodeTableWord 24 0x100000 = none := by decide

/-! ### Ill-formed instructions, one for each check -/

theorem test_wf_operand_too_wide : (Instr.sendByte 256).wellFormed ref = false ∧ (Instr.sendByte 255).wellFormed ref = true := by decide
theorem test_wf_register_operands_too_wide :
    (Instr.writeRegister 256 0).wellFormed ref = false ∧ (Instr.writeRegister 0 256).wellFormed ref = false ∧
    (Instr.readRegister 256).wellFormed ref = false ∧ (Instr.command 256).wellFormed ref = false := by decide
theorem test_wf_size_above_max :
    (Instr.readPayload buf5 4).wellFormed { ref with sizeMax := some 3 } = false ∧
    (Instr.writePayload buf5 4).wellFormed { ref with sizeMax := some 3 } = false ∧
    (Instr.writeRegistersBulk buf5 4).wellFormed { ref with sizeMax := some 3 } = false ∧
    (Instr.wireReadPayload buf5 4).wellFormed { ref with sizeMax := some 3 } = false ∧
    (Instr.wireWritePayload buf5 4).wellFormed { ref with sizeMax := some 3 } = false ∧
    (Instr.wireWriteRegistersBulk buf5 4).wellFormed { ref with sizeMax := some 3 } = false ∧
    (Instr.readPayload buf5 3).wellFormed { ref with sizeMax := some 3 } = true := by decide
/-- A data word too wide; an address with an absorbed bit; an address whose Command Byte is write_address_rx0's. -/
theorem test_wf_wire_write_register :
    (Instr.wireWriteRegister 0x05#8 256).wellFormed ref = false ∧ (Instr.wireWriteRegister 0x25#8 0).wellFormed ref = false ∧
    (Instr.wireWriteRegister 0x0A#8 0).wellFormed ref = false := by decide
/-- An address the mask cuts; under other constants, a payload opcode and a register write's Command Byte. -/
theorem test_wf_wire_read_register :
    (Instr.wireReadRegister 0x25#8).wellFormed ref = false ∧
    (Instr.wireReadRegister 0x61#8).wellFormed { ref with readAddrMask := 0xFF#8 } = false ∧
    (Instr.wireReadRegister 0x25#8).wellFormed { ref with readAddrMask := 0x3F#8 } = false := by decide
/-- An opcode that is a fixed Command Byte, a register write's, a register read's. -/
theorem test_wf_wire_command :
    (Instr.wireCommand 0xA0#8).wellFormed ref = false ∧ (Instr.wireCommand 0x25#8).wellFormed ref = false ∧
    (Instr.wireCommand 0x07#8).wellFormed ref = false := by decide
/-- Fixed Command Bytes that coincide. -/
theorem test_wf_wire_fixed_clash :
    (Instr.wireWritePayload buf5 0).wellFormed { ref with wTxPayloadOp := 0x61#8 } = false ∧
    (Instr.wireWriteAddressRx0 buf5).wellFormed { ref with rRxPayloadOp := 0x2A#8 } = false ∧
    (Instr.wireWriteAddressRx0 buf5).wellFormed { ref with wTxPayloadOp := 0x2A#8 } = false ∧
    (Instr.wireWriteAddressTx buf5).wellFormed { ref with rRxPayloadOp := 0x30#8 } = false ∧
    (Instr.wireWriteAddressTx buf5).wellFormed { ref with wTxPayloadOp := 0x30#8 } = false ∧
    (Instr.wireWriteAddressTx buf5).wellFormed { ref with rxAddrP0Reg := 0x10#8 } = false := by decide

/-! ### The step: a placed request is the next one run; with no request nothing happens -/

theorem test_step_runs_placed_request :
    nextHolds (step (State.reset.withFetchWord 24 0x10000)) (fun t => t.wt = [.desel] && t.requests = []) = true := by decide
theorem test_step_runs_placed_wire_word :
    nextHolds (step (State.reset.withFetchWord 8 0x25)) (fun t => t.wt = [.sel, .tx 0x25#8, .tx 0x00#8, .desel]) = true := by decide
theorem test_step_without_request : nextHolds (step idle) (fun t => t = idle) = true := by decide
/-- What `State.withFetchWord` and the step keep: the host's later requests. -/
theorem test_step_keeps_later_requests :
    nextHolds (step ({ idle with requests := [Request.plain (.hreq 0x00000#20), Request.plain (.hreq 0x10000#20)] }.withFetchWord 24 0x10000))
      (fun t => t.wt = [.desel] && t.requests = [Request.plain (.hreq 0x10000#20)]) = true := by decide
/-- The returned word zero-extended to 16 bits (10_state.md R43), and the duration of a command with 1 unit a call and a cycle
and `SETTLE_CYCLES` = 3: 28 calls and 8 settles of 3 (70_reset_and_hazards.md R241). -/
theorem test_result_and_duration :
    resultAs 16 0xC3#8 = 0x00C3#16 ∧
    nextHolds (exec (.command 0xE1) idle) (fun t => duration { ref with settleCycles := 3 } 1 1 t.lt = 52) = true := by decide

/-! ### Witnesses: for every obligation with hypotheses, a state and operands that meet them -/

/-- The next state of an outcome, for naming it in a witness. -/
def stateOf (o : Host.Outcome State Fault Refusal) : State :=
  match o with
  | .next t => t
  | .fault _ => idle
  | .refused _ => idle

theorem witness_SelectDrivesActiveOnly :
    idle.Bitbang ∧ idle.latches.cs ≠ .active ∧ selected.Bitbang ∧ selected.latches.cs = .active := by decide
theorem witness_DeselectDrivesInactiveOnly :
    idle.Bitbang ∧ idle.latches.cs = .inactive ∧ selected.Bitbang ∧ selected.latches.cs ≠ .inactive := by decide
theorem witness_SendByteActionList : idle.Bitbang ∧ clockHigh.Bitbang := by decide
theorem witness_ReceiveByteActionList : (fed [0xC3#8]).Bitbang ∧ 0 < 8 ∧ 7 < 8 := by decide
theorem witness_SendLawLoopback :
    idle.Bitbang ∧ idle.latches.sck = false ∧ ∃ t, exec (.sendByte (0xA5#8 : Byte).toNat) idle = .next t := ⟨rfl, rfl, _, rfl⟩
theorem witness_ReceiveLawLoopback :
    (fed [0xC3#8]).Bitbang ∧ (fed [0xC3#8]).latches.sck = false ∧ ∃ t, exec .sendZeroReceiveByte (fed [0xC3#8]) = .next t :=
  ⟨rfl, rfl, _, rfl⟩
/-- Runs that end with each of the four primitives, from a low clock; the first three words of the second run from a high one. -/
theorem witness_PrimitiveRunsKeepClockLow :
    (∀ i ∈ [Instr.select, .sendByte 7], i.isFramer = false) ∧ idle.Bitbang ∧ idle.latches.sck = false ∧
    (∃ t, runOps [.select, .sendByte 7] idle = .next t) ∧ (∃ t, runOps [.sendZeroReceiveByte] clockHigh = .next t) ∧
    (∃ t, runOps [.select] clockHigh = .next t) ∧ ∃ t, runOps [.deselect] clockHigh = .next t :=
  ⟨by decide, rfl, rfl, ⟨_, rfl⟩, ⟨_, rfl⟩, ⟨_, rfl⟩, _, rfl⟩
theorem witness_BrokenIdleEdges : clockHigh.Bitbang ∧ clockHigh.latches.sck = true := by decide
theorem witness_PrimitiveActionCounts :
    idle.Bitbang ∧ (∃ t, exec .select idle = .next t) ∧ (∃ t, exec .deselect idle = .next t) ∧
    (∃ t, exec (.sendByte 0xFF) idle = .next t) ∧ ∃ t, exec .sendZeroReceiveByte idle = .next t :=
  ⟨rfl, ⟨_, rfl⟩, ⟨_, rfl⟩, ⟨_, rfl⟩, _, rfl⟩
/-- Both sides of the last law: no overlap under `REF` for 0x1F, an overlap for 0x25. -/
theorem witness_DatapathIntegerLaws :
    0x1F#8 &&& Config.writeAddrMask &&& ref.wRegisterBit = 0#8 ∧ 0x25#8 &&& Config.writeAddrMask &&& ref.wRegisterBit ≠ 0#8 := by decide
theorem witness_AccumulatorHoldsSamplesSoFar : 0 ≤ 8 ∧ 8 ≤ 8 ∧ 0 < 8 ∧ 7 < 8 := by decide
theorem witness_BitLoopRegisters :
    0 < 8 ∧ 7 < 8 ∧ (idle.setTxv 0xA5#8).txv = some 0xA5#8 ∧ (idle.setAcc 0x80#8).acc = some 0x80#8 := by decide
theorem witness_SequencerCountsActions : (start .select idle).Bitbang ∧ (start .select idle).seq = .busy .select 0 := by decide
theorem witness_WriteRegisterTransaction : idle.Bitbang ∧ idle.latches.cs = .inactive := by decide
theorem witness_ReadRegisterTransaction : (fed [0x0E#8]).Bitbang ∧ (fed [0x0E#8]).latches.cs = .inactive ∧ 0 < 8 ∧ 7 < 8 := by decide
theorem witness_CommandTransaction : idle.Bitbang ∧ idle.latches.cs = .inactive := by decide
theorem witness_MaskingInvariant :
    (∃ t, exec (.writeRegister (0x7F#8 : Byte).toNat (0xA5#8 : Byte).toNat) idle = .next t) ∧
    (∃ u, exec (.writeRegister (0x7F#8 &&& 0x3F#8 : Byte).toNat (0xA5#8 : Byte).toNat) idle = .next u) ∧
    (∃ t, exec (.readRegister (0xFF#8 : Byte).toNat) idle = .next t) ∧
    ∃ u, exec (.readRegister (0xFF#8 &&& idle.params.readAddrMask : Byte).toNat) idle = .next u :=
  ⟨⟨_, rfl⟩, ⟨_, rfl⟩, ⟨_, rfl⟩, _, rfl⟩

/-- The states of the write and the read of register 63, with the chip presenting what was written. -/
def written : State := stateOf (exec (.writeRegister 63 0xA5) (fed [0xA5#8]))
/-- The state after the read. -/
def readBack : State := stateOf (exec (.readRegister 63) written)

theorem witness_WriteThenReadAgainstEcho :
    63 < 64 ∧ 0 < 64 ∧ (fed [0xA5#8]).Bitbang ∧ (fed [0xA5#8]).Idle ∧ (fed [0xA5#8]).params.K0 ∧ (fed [0xA5#8]).params.K1 ∧
    exec (.writeRegister 63 0xA5) (fed [0xA5#8]) = .next written ∧ exec (.readRegister 63) written = .next readBack ∧
    (echo ref).agrees ⟨fun _ => 0#8, default⟩ (fed [0xA5#8]).latches readBack.lt = true :=
  ⟨by decide, by decide, rfl, ⟨rfl, rfl⟩, by decide, by decide, rfl, rfl, by decide +kernel⟩

theorem witness_ReadPayloadStoresInOrder :
    3 ≤ buf5.cap ∧ 5 ≤ buf5.cap ∧ 0 ≤ buf5.cap ∧ withAddress.mem.wf = true ∧ withAddress.Bitbang ∧ withAddress.latches.cs = .inactive ∧
    0 < 5 ∧ 4 < 5 ∧ 15 < buf5.addr 0 ∧ buf5.addr 5 ≤ 21 ∧ 0 < 8 ∧ 7 < 8 := by decide
theorem witness_WritePayloadSendsInOrder :
    5 ≤ buf5.cap ∧ 0 ≤ buf5.cap ∧ buf5.cap < 6 ∧ withAddress.Bitbang ∧ withAddress.latches.cs = .inactive := by decide
theorem witness_WriteAddressRx0SendsFive :
    5 ≤ buf5.cap ∧ (⟨16, 4⟩ : BufRef).cap < 5 ∧ withAddress.Bitbang ∧ withAddress.latches.cs = .inactive := by decide
theorem witness_WriteAddressTxSendsFive :
    5 ≤ buf5.cap ∧ (⟨16, 4⟩ : BufRef).cap < 5 ∧ withAddress.Bitbang ∧ withAddress.latches.cs = .inactive := by decide
theorem witness_BulkSendsBufferOnly :
    5 ≤ buf5.cap ∧ 0 ≤ buf5.cap ∧ withAddress.Bitbang ∧ withAddress.latches.cs = .inactive := by decide
theorem witness_BulkOfTwoIsWriteRegister :
    2 ≤ buf5.cap ∧ ({ idle with mem := [(16, 0x25#8), (17, 0x0F#8)] } : State).mem.read buf5.base = cmdWreg ref (cut 0x05) ∧
    ({ idle with mem := [(16, 0x25#8), (17, 0x0F#8)] } : State).mem.read (buf5.base + 1) = cut 0x0F ∧
    (∃ t, exec (.writeRegistersBulk buf5 2) { idle with mem := [(16, 0x25#8), (17, 0x0F#8)] } = .next t) ∧
    ∃ u, exec (.writeRegister 0x05 0x0F) { idle with mem := [(16, 0x25#8), (17, 0x0F#8)] } = .next u :=
  ⟨by decide, by decide, by decide, ⟨_, rfl⟩, _, rfl⟩
theorem witness_ShortBufferIsRefused : buf5.cap < 6 ∧ (⟨16, 4⟩ : BufRef).cap < 5 := by decide

/-- P3 of 95_test_vectors.md: the payload chip holds three words. -/
def payIdle : State := { fed [0xDE#8, 0xAD#8, 0xBE#8] with mem := [(19, 0x77#8)] }
/-- After read_payload. -/
def payRead : State := stateOf (exec (.readPayload ⟨16, 4⟩ 3) payIdle)
/-- After write_payload. -/
def payWritten : State := stateOf (exec (.writePayload ⟨16, 4⟩ 3) payRead)

theorem witness_PayloadRoundTripAgainstPay :
    payIdle.Bitbang ∧ payIdle.Idle ∧ payIdle.mem.wf = true ∧ [0xDE#8, 0xAD#8, 0xBE#8].length ≤ (⟨16, 4⟩ : BufRef).cap ∧
    exec (.readPayload ⟨16, 4⟩ 3) payIdle = .next payRead ∧ exec (.writePayload ⟨16, 4⟩ 3) payRead = .next payWritten ∧
    (pay ref).agrees ⟨[0xDE#8, 0xAD#8, 0xBE#8], default⟩ payIdle.latches payWritten.lt = true :=
  ⟨rfl, ⟨rfl, rfl⟩, by decide, by decide, rfl, rfl, by decide +kernel⟩

/-- PAY of 95_test_vectors.md part 2: the second word after `R_RX_PAYLOAD_OP` is answered from `pl[1]`, though the first was sent. -/
theorem test_pay_counts_a_sent_word :
    (pay ref).agrees ⟨[0xDE#8, 0xAD#8], default⟩ idle.latches (traceOf [.sel, .tx 0x61#8, .tx 0x00#8, .rx 0xAD#8, .desel]) = true ∧
    (pay ref).agrees ⟨[0xDE#8, 0xAD#8], default⟩ idle.latches (traceOf [.sel, .tx 0x61#8, .tx 0x00#8, .rx 0xDE#8, .desel]) = false := by
  decide +kernel

/-- 95_test_vectors.md 3.3, `K1` broken: the Command Byte 0x25 of a read is taken for a write, and the read returns 0x00. -/
theorem test_echo_answers_zero_in_write_mode :
    (echo ref).agrees ⟨fun _ => 0xFF#8, default⟩ idle.latches (traceOf [.sel, .tx 0x25#8, .rx 0x00#8, .desel]) = true ∧
    (echo ref).agrees ⟨fun _ => 0xFF#8, default⟩ idle.latches (traceOf [.sel, .tx 0x25#8, .rx 0x01#8, .desel]) = false := by
  decide +kernel

/-- ECHO of 95_test_vectors.md part 2: it answers the 8 samples of the next word, and no more. -/
theorem test_echo_answers_one_word :
    (echo ref).agrees ⟨fun _ => 0x0E#8, default⟩ idle.latches (traceOf [.sel, .tx 0x07#8, .rx 0x0E#8, .rx 0xFF#8, .desel, .rx 0x55#8]) = true ∧
    (echo ref).agrees ⟨fun _ => 0x0E#8, default⟩ idle.latches (traceOf [.sel, .tx 0x07#8, .rx 0x0F#8, .desel]) = false := by
  decide +kernel

theorem witness_SessionDiscipline :
    (Instr.writeRegistersBulk buf5 0).isFramer = true ∧ (Instr.command 0).isFramer = true ∧
    (∃ t, exec (.writeRegistersBulk buf5 0) idle = .next t) ∧ (∃ t, exec (.command 0) idle = .next t) ∧ idle.Bitbang ∧
    idle.latches.cs = .inactive :=
  ⟨rfl, rfl, ⟨_, rfl⟩, ⟨_, rfl⟩, rfl, rfl⟩
theorem witness_ControlFlowIgnoresData :
    (Instr.writePayload buf5 2).form = (Instr.writePayload ⟨40, 2⟩ 2).form ∧ (∃ t, exec (.writePayload buf5 2) withAddress = .next t) ∧
    (∃ v, exec (.writePayload ⟨40, 2⟩ 2) clockHigh = .next v) ∧ withAddress.Bitbang ∧ clockHigh.Bitbang :=
  ⟨rfl, ⟨_, rfl⟩, ⟨_, rfl⟩, rfl, rfl⟩
theorem witness_FramersAreTheirExpansion :
    (∃ t, exec (.readPayload buf5 2) (fed [0xDE#8, 0xAD#8]) = .next t) ∧ (fed [0xDE#8, 0xAD#8]).Bitbang := ⟨⟨_, rfl⟩, rfl⟩
theorem witness_LinesDecodeToWords :
    (∃ t, exec (.readRegister 7) (fed [0x0E#8]) = .next t) ∧ (fed [0x0E#8]).Bitbang ∧ (fed [0x0E#8]).latches.sck = false :=
  ⟨⟨_, rfl⟩, rfl, rfl⟩
theorem witness_DataSetupOrdering :
    (∃ t, exec (.readRegister 7) (fed [0x0E#8]) = .next t) ∧ (fed [0x0E#8]).Bitbang ∧ (fed [0x0E#8]).latches.sck = false :=
  ⟨⟨_, rfl⟩, rfl, rfl⟩
theorem witness_FramersKeepIdle :
    (Instr.writeRegistersBulk buf5 0).isFramer = true ∧ idle.Bitbang ∧ idle.Idle ∧
    ∃ t, exec (.writeRegistersBulk buf5 0) idle = .next t := ⟨rfl, rfl, ⟨rfl, rfl⟩, _, rfl⟩
theorem witness_WireRegisterRowsComplete : idle.Bitbang ∧ idle.latches.cs = .inactive ∧ 0 < 8 ∧ 7 < 8 := by decide
theorem witness_WireBufferRowsComplete :
    5 ≤ buf5.cap ∧ 0 ≤ buf5.cap ∧ withAddress.Bitbang ∧
    (Instr.wireReadPayload buf5 5, Instr.readPayload buf5 5) ∈ [(Instr.wireReadPayload buf5 5, Instr.readPayload buf5 5),
      (Instr.wireWritePayload buf5 5, Instr.writePayload buf5 5), (Instr.wireWriteRegistersBulk buf5 5, Instr.writeRegistersBulk buf5 5)] ∧
    (Instr.wireWriteAddressTx buf5, Instr.writeAddressTx buf5) ∈
      [(Instr.wireWriteAddressRx0 buf5, Instr.writeAddressRx0 buf5), (Instr.wireWriteAddressTx buf5, Instr.writeAddressTx buf5)] := by
  decide
theorem witness_WireRowSendsItsOwnCode :
    (Instr.wireWriteRegister 0x05#8 0x0F).wellFormed idle.params = true ∧
    (encode idle.params (.wireWriteRegister 0x05#8 0x0F)).code = .wire (some 0x25#8) ∧
    (∃ t, exec (.wireWriteRegister 0x05#8 0x0F) idle = .next t) ∧ idle.Bitbang ∧ idle.latches.sck = false :=
  ⟨by decide, by decide, ⟨_, rfl⟩, rfl, rfl⟩
/-- Every constructor with operands at a boundary of its fields. -/
theorem witness_DecodeEncodeRoundTrip :
    (Instr.writeRegister 255 255).wellFormed ref = true ∧ (Instr.readPayload buf5 0).wellFormed ref = true ∧
    (Instr.wireWriteRegister 0x1F#8 255).wellFormed ref = true ∧ (Instr.wireReadRegister 0x1F#8).wellFormed ref = true ∧
    (Instr.wireCommand 0xFF#8).wellFormed ref = true ∧ (Instr.wireWriteAddressTx buf5).wellFormed ref = true := by decide
theorem witness_HreqUnusedFieldsIgnored :
    0 < 16 ∧ 15 < 16 ∧ 15 ≠ 4 ∧ 5 ≠ 4 ∧ 15 ∉ [2, 4, 5, 6] ∧ 3 ∉ [2, 4, 5, 6] := by decide
theorem witness_CommandByteFormats : 0 < 8 ∧ 7 < 8 := by decide
theorem witness_WideOperandsAreCut :
    (∃ t, exec (.sendByte 0x1A5) idle = .next t) ∧ (∃ u, exec (.sendByte (0x1A5 % 256)) idle = .next u) ∧
    (∃ t, exec (.writeRegister 0x17F 0x1A5) idle = .next t) ∧ (∃ u, exec (.writeRegister (0x17F % 256) (0x1A5 % 256)) idle = .next u) ∧
    (∃ t, exec (.readRegister 0x107) idle = .next t) ∧ (∃ u, exec (.readRegister (0x107 % 256)) idle = .next u) ∧
    (∃ t, exec (.command 0x1E1) idle = .next t) ∧ ∃ u, exec (.command (0x1E1 % 256)) idle = .next u :=
  ⟨⟨_, rfl⟩, ⟨_, rfl⟩, ⟨_, rfl⟩, ⟨_, rfl⟩, ⟨_, rfl⟩, ⟨_, rfl⟩, ⟨_, rfl⟩, _, rfl⟩

/-- `withAddress` with two requests pending. -/
def pending : State := { withAddress with requests := [encode ref (.writePayload buf5 5), encode ref .deselect] }

theorem witness_StepRunsDecodedRequest : pending.requests = encode ref (.writePayload buf5 5) :: [encode ref .deselect] := rfl
theorem witness_StepWithoutRequestHolds : idle.requests = [] := rfl
theorem witness_StepKeepsInvariant :
    pending.mem.wf = true ∧ pending.Quiescent ∧ pending.latches.sck = false ∧ ∃ t, step pending = .next t :=
  ⟨by decide, by decide, rfl, _, rfl⟩
theorem witness_StepKeepsTracesAgree : pending.Bitbang ∧ pending.TracesAgree ∧ ∃ t, step pending = .next t := ⟨rfl, rfl, _, rfl⟩
theorem witness_StepKeepsLatchesReplayed :
    pending.Bitbang ∧ pending.ReplaysFrom pending.latches ∧ ∃ t, step pending = .next t := ⟨rfl, rfl, _, rfl⟩
theorem witness_StepKeepsConstantsExtendsTraces : ∃ t, step pending = .next t := ⟨_, rfl⟩
theorem witness_NonStoringFrame :
    (∃ t, exec (.writePayload buf5 5) withAddress = .next t) ∧ (Instr.writePayload buf5 5).stores = none := ⟨⟨_, rfl⟩, rfl⟩
theorem witness_StoringFrame :
    (Instr.readPayload buf5 5).stores = some (buf5, 5) ∧ (Instr.wireReadPayload buf5 5).stores = some (buf5, 5) ∧
    (∃ t, exec (.readPayload buf5 5) withAddress = .next t) ∧ withAddress.mem.wf = true ∧ 15 < buf5.addr 0 ∧ buf5.addr 5 ≤ 21 ∧
    0 < 5 ∧ 4 < 5 := ⟨rfl, rfl, ⟨_, rfl⟩, by decide, by decide, by decide, by decide, by decide⟩
theorem witness_ExternalBusSameWords :
    (∃ t, exec (.readPayload buf5 1) (fed [0xDE#8]) = .next t) ∧ ∃ u, exec (.readPayload buf5 1) { ext with miso := feed 0xDE#8 } = .next u :=
  ⟨⟨_, rfl⟩, _, rfl⟩
theorem witness_SettlesCanBeErased : (∃ t, exec (.command 0xE1) idle = .next t) ∧ idle.Bitbang := ⟨⟨_, rfl⟩, rfl⟩

end Sys2Proof.Tests
end

section
/-! PROOFS. select and deselect as operations of the host (40_bus_primitives.md R110, R111), from what every accepted operation does
(`exec_accepted`). -/

namespace Sys2Proof.Machine

/-- An operation that leaves the host's bytes leaves everything of the host's. -/
theorem Did.sameHost {s t : State} {w : List Event} {r : Option Byte} {n : Nat} (d : Did s t w r n s.mem) : SameHost s t :=
  ⟨d.mem, d.requests, d.params⟩

/-- An operation that receives no word takes no sample. -/
theorem Did.noSample {s t : State} {w : List Event} {r : Option Byte} {m : Memory} (d : Did s t w r 0 m) : NoSample s t :=
  ⟨d.miso, d.draws⟩

/-- Driving chip-select is a transition just where it was in the other state (10_state.md R42). -/
theorem csTransitions_single_cs (l : Latches) (c : CsState) : csTransitions l [.cs c] = if l.cs = c then 0 else 1 := by
  simp [eq_comm]

/-- The lines of an operation whose one primitive call drives chip-select and nothing else. -/
theorem Did.csLines {s t : State} {e : Event} {c : CsState} {r : Option Byte} {n : Nat} {m : Memory} (d : Did s t [e] r n m)
    (he : e.actions = [.cs c]) (h : s.Bitbang) :
    t.lt = s.lt ++ [.cs c] ∧ t.latches = { s.latches with cs := c } ∧
      csTransitions s.latches [.cs c] = if s.latches.cs = c then 0 else 1 := by
  obtain ⟨hlt, hlatches⟩ := d.lines h
  have htrace : traceOf [e] = [.cs c] := by simp [he]
  rw [htrace] at hlt hlatches
  exact ⟨hlt, hlatches, csTransitions_single_cs _ c⟩

/-- Settles O1: select is accepted in every state, and its one primitive call drives chip-select active. -/
theorem selectDrivesActiveOnly : Obligations.SelectDrivesActiveOnly := by
  intro s
  obtain ⟨t, ht, d⟩ := exec_accepted .select s rfl
  exact ⟨t, ht, d.wt, d.result, d.sameHost, d.noSample, d.quiescent, d.csLines actions_sel⟩

/-- Settles O2: deselect is accepted in every state, and its one primitive call drives chip-select inactive. -/
theorem deselectDrivesInactiveOnly : Obligations.DeselectDrivesInactiveOnly := by
  intro s
  obtain ⟨t, ht, d⟩ := exec_accepted .deselect s rfl
  exact ⟨t, ht, d.wt, d.result, d.sameHost, d.noSample, d.quiescent, d.csLines actions_desel⟩

end Sys2Proof.Machine
end

section
/-! PROOFS. The Command Byte formats and the encoding (30_encoding.md section 1, section 3). -/

namespace Sys2Proof

/-! ### The register formats bit by bit (R84, R85) -/

/-- Bit `i` of the write mask: the low six bits are kept. -/
theorem getLsbD_writeAddrMask : ∀ i < 8, Config.writeAddrMask.getLsbD i = decide (i < 6) := by decide

theorem getLsbD_cmdWreg (p : Params) (reg : Byte) (i : Nat) (hi : i < 8) :
    (cmdWreg p reg).getLsbD i = ((decide (i < 6) && reg.getLsbD i) || p.wRegisterBit.getLsbD i) := by
  simp [cmdWreg, getLsbD_writeAddrMask i hi, Bool.and_comm]

theorem getLsbD_wregAddress (p : Params) (w : Byte) (i : Nat) (hi : i < 8) :
    (wregAddress p w).getLsbD i = (decide (i < 6) && w.getLsbD i && !p.wRegisterBit.getLsbD i) := by
  simp only [wregAddress, BitVec.getLsbD_and, BitVec.getLsbD_not, getLsbD_writeAddrMask i hi, hi, decide_true, Bool.true_and,
    Bool.and_comm (w.getLsbD i)]

/-- Masking a register address before forming a write's Command Byte changes nothing (41_register_access.md R146). -/
theorem cmdWreg_and_mask (p : Params) (reg : Byte) : cmdWreg p (reg &&& Config.writeAddrMask) = cmdWreg p reg := by
  rw [cmdWreg, cmdWreg, BitVec.and_assoc, BitVec.and_self]

/-- Masking a register address before forming a read's Command Byte changes nothing (R146). -/
theorem cmdRreg_and_mask (p : Params) (reg : Byte) : cmdRreg p (reg &&& p.readAddrMask) = cmdRreg p reg := by
  rw [cmdRreg, cmdRreg, BitVec.and_assoc, BitVec.and_self]

/-- A write's Command Byte shows a register address that forms the same byte. -/
theorem cmdWreg_wregAddress (p : Params) (w : Byte) : cmdWreg p (wregAddress p w) = cmdWreg p w := by
  refine BitVec.eq_of_getLsbD_eq fun i hi => ?_
  rw [getLsbD_cmdWreg p _ i hi, getLsbD_cmdWreg p _ i hi, getLsbD_wregAddress p w i hi]
  cases decide (i < 6) <;> cases p.wRegisterBit.getLsbD i <;> simp

/-- A write's Command Byte shows as much of the register address as the address itself does. -/
theorem wregAddress_cmdWreg (p : Params) (reg : Byte) : wregAddress p (cmdWreg p reg) = wregAddress p reg := by
  refine BitVec.eq_of_getLsbD_eq fun i hi => ?_
  rw [getLsbD_wregAddress p _ i hi, getLsbD_wregAddress p _ i hi, getLsbD_cmdWreg p reg i hi]
  cases decide (i < 6) <;> cases p.wRegisterBit.getLsbD i <;> simp

/-- A formed write Command Byte is recognised as one. -/
theorem isWregImage_cmdWreg (p : Params) (reg : Byte) : isWregImage p (cmdWreg p reg) = true := by
  have idem : cmdWreg p (cmdWreg p reg) = cmdWreg p reg := by
    rw [← cmdWreg_wregAddress p (cmdWreg p reg), wregAddress_cmdWreg, cmdWreg_wregAddress]
  simp [isWregImage, idem]

/-! ### Reading a Command Byte (log entry 10) -/

/-- A byte that is none of the four fixed Command Bytes is read by its format. -/
theorem decodeWire_of_not_fixed (p : Params) (w : Byte) (value : Nat) (buf : BufRef) (size : Nat)
    (h : isFixedCmd p w = false) :
    decodeWire p w value buf size =
      if isWregImage p w then .wireWriteRegister (wregAddress p w) value
      else if isRregImage p w then .wireReadRegister w
      else .wireCommand w := by
  simp only [isFixedCmd, Bool.or_eq_false_iff, beq_eq_false_iff_ne] at h
  obtain ⟨⟨⟨hrx, htx⟩, hrx0⟩, htxa⟩ := h
  rw [decodeWire, if_neg hrx, if_neg htx, if_neg hrx0, if_neg htxa]

/-- Settles O38: an `HREQ` is read back by its fields, and well-formedness says that the byte of a wire row meets no
format read before its own. -/
theorem decodeEncodeRoundTrip : Obligations.DecodeEncodeRoundTrip := by
  intro p i h
  cases i with
  | wireWriteRegister reg value =>
    simp only [Instr.wellFormed, Bool.and_eq_true, beq_iff_eq, Bool.not_eq_true'] at h
    obtain ⟨⟨-, haddr⟩, hfixed⟩ := h
    change decodeWire p (cmdWreg p reg) value _ _ = _
    rw [decodeWire_of_not_fixed p _ _ _ _ hfixed, if_pos (isWregImage_cmdWreg p reg), wregAddress_cmdWreg, haddr]
  | wireReadRegister reg =>
    simp only [Instr.wellFormed, Bool.and_eq_true, Bool.not_eq_true'] at h
    obtain ⟨⟨himage, hfixed⟩, hwreg⟩ := h
    have hcmd : cmdRreg p reg = reg := by simpa [isRregImage] using himage
    change decodeWire p (cmdRreg p reg) _ _ _ = _
    rw [hcmd, decodeWire_of_not_fixed p _ _ _ _ hfixed]
    simp [hwreg, himage]
  | wireCommand opcode =>
    simp only [Instr.wellFormed, Bool.and_eq_true, Bool.not_eq_true'] at h
    obtain ⟨⟨hfixed, hwreg⟩, hrreg⟩ := h
    change decodeWire p opcode _ _ _ = _
    rw [decodeWire_of_not_fixed p _ _ _ _ hfixed]
    simp [hwreg, hrreg]
  | wireReadPayload | wireWritePayload | wireWriteAddressRx0 | wireWriteAddressTx | wireWriteRegistersBulk =>
    simp_all [Instr.wellFormed, encode, decode, decodeWire, cmdRaw]
  | sendByte | writeRegister | readRegister | command =>
    simp_all [Instr.wellFormed, fitsByte, encode, decode, decodeHreq, Request.plain, Nat.mod_eq_of_lt]
  | _ => simp [encode, decode, decodeHreq, Request.plain]

/-- Settles O39: each format read gives back the byte it was read from. -/
theorem encodeDecodeWireByte : Obligations.EncodeDecodeWireByte := by
  intro p w value size buf
  cases hfixed : isFixedCmd p w with
  | true =>
    simp only [isFixedCmd, Bool.or_eq_true, beq_iff_eq] at hfixed
    unfold decodeWire
    split_ifs <;> simp_all [encode, cmdRaw]
  | false =>
    rw [decodeWire_of_not_fixed p w _ _ _ hfixed]
    split_ifs with hwreg hrreg
    · have hw : cmdWreg p w = w := by simpa [isWregImage] using hwreg
      simp [encode, cmdWreg_wregAddress, hw]
    · have hw : cmdRreg p w = w := by simpa [isRregImage] using hrreg
      simp [encode, Request.plain, hw]
    · simp [encode, Request.plain, cmdRaw]

/-- Settles O40: the fields of the word are read back, and `OP` selects. -/
theorem operationCodeTable : Obligations.OperationCodeTable := by
  intro a b buf size
  simp [List.range_succ, decodeHreq]

/-- Settles O41: for each of the sixteen codes the operation read names the fields it uses. -/
theorem hreqUnusedFieldsIgnored : Obligations.HreqUnusedFieldsIgnored := by
  intro op a b c d buf size hop
  interval_cases op <;> simp [decodeHreq, Instr.form]

/-- Settles O42: the bits of the two register formats; `REF` keeps the five bits below its write bit. -/
theorem commandByteFormats : Obligations.CommandByteFormats := by
  intro p reg c i hi
  have hwrite : (0x20#8).getLsbD i = decide (i = 5) := by interval_cases i <;> rfl
  have hread : (0x1F#8).getLsbD i = decide (i < 5) := by interval_cases i <;> rfl
  refine ⟨getLsbD_cmdWreg p reg i hi, by simp [cmdRreg], rfl, by simp [cmdWaddr], ?_, ?_, rfl, rfl,
    by simp [cmdWaddr, Params.toRef], by simp [cmdWaddr, Params.toRef]⟩
  · rw [getLsbD_cmdWreg _ _ i hi]
    simp only [Params.toRef, hwrite]
    by_cases h5 : i = 5
    · simp [h5]
    · have h6 : decide (i < 6) = decide (i < 5) := by simp; omega
      simp [h5, h6]
  · simp only [cmdRreg, Params.toRef, BitVec.getLsbD_and, hread, Bool.and_comm]

/-- Settles O43: the words evaluated. -/
theorem writtenOutWordsDecode : Obligations.WrittenOutWordsDecode := by
  unfold Obligations.WrittenOutWordsDecode
  decide

/-- Settles O45: `K0` to `K2` speak of `REF`'s own values only. -/
theorem referenceIsConsistent : Obligations.ReferenceIsConsistent := by
  intro p
  simp [Params.K0, Params.K1, Params.K2, Params.toRef, Config.writeAddrMask, cmdRreg, Machine.echoWrites]

end Sys2Proof
end

section
/-! PROOFS. What every completed operation does (20_memory.md section 1, 10_state.md section 3, 60_exceptions.md), from `exec_cases`. -/

namespace Sys2Proof.Machine

/-- The host's bytes after an operation that stores nothing. -/
theorem memAfter_of_stores_none {i : Instr} (s : State) (h : i.stores = none) : i.memAfter s = s.mem := by
  simp [Instr.memAfter, h]

/-- The host's bytes after an operation that stores the words it receives. -/
theorem memAfter_of_stores {i : Instr} {b : BufRef} {n : Nat} (s : State) (h : i.stores = some (b, n)) :
    i.memAfter s = s.mem.storeWords b 0 ((List.range n).map s.drawnWord) := by
  simp [Instr.memAfter, h]

/-- The k-th received word stands at the k-th element (42_payload_and_address.md R160). -/
theorem read_received_at (s : State) (b : BufRef) (n k : Nat) (hk : k < n) (hwf : s.mem.wf = true) :
    (s.mem.storeWords b 0 ((List.range n).map s.drawnWord)).read (b.addr k) = s.drawnWord k := by
  have h := Memory.read_storeWords_at s.mem b 0 ((List.range n).map s.drawnWord) k (by simpa using hk) hwf
  rw [Nat.zero_add] at h
  rw [h, List.getElem_map, List.getElem_range]

/-- An address outside the elements received to reads as before (R55). -/
theorem read_received_other (s : State) (b : BufRef) (n a : Nat) (h : a < b.addr 0 ∨ b.addr n ≤ a) :
    (s.mem.storeWords b 0 ((List.range n).map s.drawnWord)).read a = s.mem.read a :=
  Memory.read_storeWords_other _ _ _ _ _ (by simpa using h)

/-- Every operation keeps the memory's canonical form. -/
theorem memAfter_wf (i : Instr) (s : State) (h : s.mem.wf = true) : (i.memAfter s).wf = true := by
  cases hs : i.stores with
  | none => rw [memAfter_of_stores_none s hs]; exact h
  | some bn => rw [memAfter_of_stores s hs]; exact Memory.wf_storeWords _ _ _ _ h

/-- Settles O57: the frame of every completed operation. -/
theorem nonStoringFrame : Obligations.NonStoringFrame := by
  intro i s t h
  obtain ⟨-, d⟩ := exec_cases h
  refine ⟨d.requests, d.params, d.quiescent, d.miso, d.draws, fun hs a => ?_⟩
  rw [d.mem, memAfter_of_stores_none s hs]

/-- Settles O58: the bytes after a storing operation are the old ones with the received words stored in order. -/
theorem storingFrame : Obligations.StoringFrame := by
  intro i b n s t hs h
  obtain ⟨-, d⟩ := exec_cases h
  rw [d.mem, memAfter_of_stores s hs]
  exact ⟨read_received_other s b n, Memory.wf_storeWords _ _ _ _, fun hwf k hk => read_received_at s b n k hk hwf⟩

/-- Settles O48: an accepted operation completes; one that is not accepted is a reserved code or has a short buffer. -/
theorem everyRequestIsRunOrRefused : Obligations.EveryRequestIsRunOrRefused := by
  intro i s
  cases ha : i.accepted with
  | true =>
    obtain ⟨t, ht, -⟩ := exec_accepted i s ha
    exact .inl ⟨rfl, t, ht⟩
  | false =>
    have hexec := exec_rejected i s ha
    cases hr : i.isReserved with
    | true => exact .inr (.inl ⟨rfl, by simpa [hr] using hexec⟩)
    | false =>
      cases hm : i.moves with
      | none => simp [Instr.accepted, hr, hm] at ha
      | some bn =>
        have hshort : bn.1.cap < bn.2 := by simpa [Instr.accepted, hr, hm] using ha
        exact .inr (.inr ⟨bn.1, bn.2, rfl, hshort, by simpa [hr] using hexec⟩)

/-- An operation that moves more words than its buffer holds is refused for capacity (20_memory.md R56). -/
theorem exec_short_buffer {i : Instr} {b : BufRef} {n : Nat} (s : State) (hm : i.moves = some (b, n))
    (hr : i.isReserved = false) (h : b.cap < n) : exec i s = .refused .capacity := by
  simpa [hr] using exec_rejected i s (by simpa [Instr.accepted, hr, hm] using h)

/-- An operation whose buffer has room for the words it moves is accepted. -/
theorem accepted_of_room {i : Instr} {b : BufRef} {n : Nat} (hm : i.moves = some (b, n)) (hr : i.isReserved = false)
    (h : n ≤ b.cap) : i.accepted = true := by
  simpa [Instr.accepted, hr, hm] using h

/-- Settles O26: each of the ten buffer operations moves `size` or five words of its buffer. -/
theorem shortBufferIsRefused : Obligations.ShortBufferIsRefused := by
  intro b size s
  refine ⟨fun h => ⟨?_, ?_, ?_, ?_, ?_, ?_⟩, fun h => ⟨?_, ?_, ?_, ?_⟩⟩ <;> exact exec_short_buffer s rfl rfl h

/-- Settles O27: no reserved code is accepted. -/
theorem reservedCodesAreRefused : Obligations.ReservedCodesAreRefused := fun s =>
  ⟨exec_rejected .reservedC s rfl, exec_rejected .reservedD s rfl, exec_rejected .reservedE s rfl, exec_rejected .reservedF s rfl⟩

/-- The primitive calls of an operation do not depend on which bus is linked in (10_state.md R41). -/
theorem words_external (i : Instr) (s : State) :
    i.words { s with params := { s.params with busImpl := .external } } = i.words s := by
  cases i <;> rfl

/-- Nor does its result. -/
theorem returns_external (i : Instr) (s : State) :
    i.returns { s with params := { s.params with busImpl := .external } } = i.returns s := by
  cases i <;> rfl

/-- Settles O59: whether an operation is accepted, its words, its result and its bytes do not depend on the bus. -/
theorem externalBusSameWords : Obligations.ExternalBusSameWords := by
  intro i s t h
  obtain ⟨ha, d⟩ := exec_cases h
  obtain ⟨u, hu, e⟩ := exec_accepted i { s with params := { s.params with busImpl := .external } } ha
  refine ⟨u, hu, ?_, ?_, ?_, ?_, ?_, ?_⟩
  · rw [e.wt, d.wt, words_external]
  · rw [e.result, d.result, returns_external]
  · rw [e.mem, d.mem]; rfl
  · rw [e.miso, d.miso]
  · rw [e.draws, d.draws]
  · rw [e.requests, d.requests]

end Sys2Proof.Machine
end

section
/-! PROOFS. What every step keeps (10_state.md section 1, section 4), from `step_cases`. -/

namespace Sys2Proof.Machine

/-- A step holds the state, or takes the first request and does what its transaction format says. -/
theorem step_did {s t : State} (h : step s = .next t) :
    t = s ∨ ∃ (i : Instr) (rest : List Request),
      Did { s with requests := rest } t (i.words s) (i.returns s) i.received (i.memAfter s) := by
  obtain ⟨-, rfl⟩ | ⟨r, rest, -, hexec⟩ := step_cases h
  · exact .inl rfl
  · obtain ⟨-, d⟩ := exec_cases hexec
    have hwords : (decode s.params r).words { s with requests := rest } = (decode s.params r).words s := by
      cases decode s.params r <;> rfl
    have hreturns : (decode s.params r).returns { s with requests := rest } = (decode s.params r).returns s := by
      cases decode s.params r <;> rfl
    rw [hwords, hreturns] at d
    exact .inr ⟨decode s.params r, rest, d⟩

/-- Settles O53: the bytes stay canonical, nothing of the operation remains, and the clock is low after every word. -/
theorem stepKeepsInvariant : Obligations.StepKeepsInvariant := by
  rintro s t ⟨hmem, hquiet, hclock⟩ h
  obtain rfl | ⟨i, rest, d⟩ := step_did h
  · exact ⟨hmem, hquiet, hclock⟩
  · refine ⟨by rw [d.mem]; exact memAfter_wf i s hmem, d.quiescent, fun hb => ?_⟩
    have hbus : s.Bitbang := bitbang_congr hb d.params.symm
    rw [(d.lines hbus).2]
    exact replay_traceOf_sck _ _ (hclock hbus)

/-- Settles O54: an operation appends its primitive calls to `WT` and their actions to `LT`. -/
theorem stepKeepsTracesAgree : Obligations.StepKeepsTracesAgree := by
  intro s t hb hagree h
  obtain rfl | ⟨i, rest, d⟩ := step_did h
  · exact ⟨hb, hagree⟩
  · refine ⟨bitbang_congr hb d.params, ?_⟩
    calc t.lt = s.lt ++ traceOf (i.words s) := (d.lines hb).1
      _ = traceOf s.wt ++ traceOf (i.words s) := by rw [show s.lt = traceOf s.wt from hagree]
      _ = traceOf t.wt := by rw [d.wt, traceOf_append]

/-- Settles O55: an operation leaves the latches that replaying the actions it appended gives. -/
theorem stepKeepsLatchesReplayed : Obligations.StepKeepsLatchesReplayed := by
  intro l s t hb hreplay h
  obtain rfl | ⟨i, rest, d⟩ := step_did h
  · exact hreplay
  · obtain ⟨hlt, hlatches⟩ := d.lines hb
    calc replay l t.lt = replay (replay l s.lt) (traceOf (i.words s)) := by rw [hlt, replay_append]
      _ = replay s.latches (traceOf (i.words s)) := by rw [show replay l s.lt = s.latches from hreplay]
      _ = t.latches := hlatches.symm

/-- Settles O56: an operation appends to the traces and leaves the constants. -/
theorem stepKeepsConstantsExtendsTraces : Obligations.StepKeepsConstantsExtendsTraces := by
  intro s t h
  obtain rfl | ⟨i, rest, d⟩ := step_did h
  · exact ⟨rfl, List.prefix_rfl, List.prefix_rfl⟩
  · refine ⟨d.params, ⟨_, d.wt.symm⟩, ?_⟩
    by_cases hb : s.Bitbang
    · exact ⟨_, (d.lines hb).1.symm⟩
    · exact ⟨[], by rw [d.noLines hb, List.append_nil]⟩

/-- Settles O46: the second branch of a step. -/
theorem stepRunsDecodedRequest : Obligations.StepRunsDecodedRequest := by
  intro s r rest h
  rw [step, h]

/-- Settles O47: the first branch of a step. -/
theorem stepWithoutRequestHolds : Obligations.StepWithoutRequestHolds := by
  intro s h
  rw [step, h]

/-- Settles O49: the reset state's fields. -/
theorem resetState : Obligations.ResetState :=
  ⟨⟨rfl, rfl, rfl, rfl, rfl, rfl⟩, rfl, rfl, rfl, rfl, rfl⟩

/-- Settles O50: the launch drives set chip-select and the clock, and data-out where asked. -/
theorem launchEstablishesIdle : Obligations.LaunchEstablishesIdle := by
  intro mosiToo s
  cases mosiToo <;> exact ⟨⟨rfl, rfl⟩, rfl, rfl, rfl, rfl⟩

/-- Settles O51: the reset memory is empty and the reset clock low. -/
theorem invariantAtReset : Obligations.InvariantAtReset :=
  ⟨rfl, ⟨rfl, rfl, rfl, rfl, rfl, rfl⟩, fun _ => rfl⟩

/-- Settles O52: empty traces agree, and replay to the latches they start from. -/
theorem traceInvariantsAtReset : Obligations.TraceInvariantsAtReset :=
  ⟨rfl, rfl, rfl⟩

end Sys2Proof.Machine
end

section
/-! PROOFS. The four primitives as operations of the host (40_bus_primitives.md section 3 to section 6). -/

namespace Sys2Proof.Machine

/-! ### Their action lists -/

/-- The lines of an operation of one primitive call. -/
theorem Did.eventLines {s t : State} {e : Event} {r : Option Byte} {n : Nat} {m : Memory} (d : Did s t [e] r n m)
    (h : s.Bitbang) : t.lt = s.lt ++ e.actions ∧ t.latches = replay s.latches e.actions := by
  simpa using d.lines h

/-- The action list of a received word names the draws it took. -/
theorem actions_rx_drawnWord (s : State) : Event.actions (.rx (s.drawnWord 0)) = receiveActions s.drawAt :=
  (receiveActions_drawAt s).symm

/-- The draws of a received word, first in bit 7 (20_memory.md R57). -/
theorem getLsbD_drawnWord (s : State) (i k : Nat) (hk : k < 8) :
    (s.drawnWord i).getLsbD (7 - k) = s.drawAt (8 * i + k) := wireBit_drawnWord s i k hk

/-- The draws of the next word. -/
theorem getLsbD_drawnWord_zero (s : State) (k : Nat) (hk : k < 8) : (s.drawnWord 0).getLsbD (7 - k) = s.drawAt k := by
  simpa using getLsbD_drawnWord s 0 k hk

/-- Settles O3: send_byte makes one primitive call, whose action list is `sendActions`. -/
theorem sendByteActionList : Obligations.SendByteActionList := by
  intro value s
  obtain ⟨t, ht, d⟩ := exec_accepted (.sendByte value) s rfl
  refine ⟨t, ht, d.wt, d.result, d.sameHost, d.noSample, d.quiescent, fun hb => ?_⟩
  obtain ⟨hlt, hlatches⟩ := d.eventLines hb
  exact ⟨⟨_, hlt, length_sendActions _, rfl⟩, by rw [hlatches, actions_tx, replay_sendActions]⟩

/-- Settles O4: send_zero_receive_byte makes one primitive call, whose action list is `receiveActions` of the draws. -/
theorem receiveByteActionList : Obligations.ReceiveByteActionList := by
  intro s
  obtain ⟨t, ht, d⟩ := exec_accepted .sendZeroReceiveByte s rfl
  refine ⟨t, s.drawnWord 0, ht, d.result, getLsbD_drawnWord_zero s, d.wt, d.sameHost, d.miso, d.draws, d.quiescent, fun hb => ?_⟩
  obtain ⟨hlt, hlatches⟩ := d.eventLines hb
  rw [actions_rx_drawnWord] at hlt hlatches
  exact ⟨⟨_, hlt, length_receiveActions _, rfl⟩, by rw [hlatches, replay_receiveActions]⟩

/-- Settles O5: what an observer reads off the actions of a sent word. -/
theorem sendLawLoopback : Obligations.SendLawLoopback := by
  intro v s t hb hclock h
  obtain ⟨-, d⟩ := exec_cases h
  obtain ⟨hlt, -⟩ := d.eventLines hb
  have hcut : cut v.toNat = v := by simp [cut]
  rw [hcut, actions_tx] at hlt
  refine ⟨_, hlt, ?_, risingEdges_sendActions _ v, by simp [fallingEdges_sendActions, hclock], keepsDataSetup_sendActions _ v⟩
  simpa using mosiWords_traceOf [.tx v] s.latches hclock

/-- Settles O6: what an observer reads off the actions of a received word. -/
theorem receiveLawLoopback : Obligations.ReceiveLawLoopback := by
  intro s t hb h
  obtain ⟨-, d⟩ := exec_cases h
  obtain ⟨hlt, -⟩ := d.eventLines hb
  refine ⟨_, s.drawnWord 0, hlt, d.result, getLsbD_drawnWord_zero s, ?_, fun hclock => ⟨?_, ?_, ?_⟩⟩
  · simpa using misoWords_traceOf [.rx (s.drawnWord 0)]
  · simp [risingEdges_receiveActions, hclock]
  · simp
  · simpa using mosiWords_traceOf [.rx (s.drawnWord 0)] s.latches hclock

/-- A word of draws is told by its eight draws. -/
theorem drawnWord_eq_of_draws {s : State} {i : Nat} {v : Byte} (h : ∀ k < 8, s.drawAt (8 * i + k) = wireBit v k) :
    s.drawnWord i = v := by
  have h0 : s.drawAt (8 * i) = wireBit v 0 := h 0 (by decide)
  calc s.drawnWord i = wordOfBits (wireBit v) := by simp [State.drawnWord, wordOfBits_eq, Config.wordBits, h, h0]
    _ = v := wordOfBits_wireBit v

/-- The next word to come is the one the environment presents. -/
theorem drawnWord_feed (v : Byte) (rest : List Level) (s : State) : ({ s with miso := feed v ++ rest } : State).drawnWord 0 = v :=
  drawnWord_eq_of_draws fun k hk => by simp [State.drawAt, feed, List.getElem?_append, hk]

/-- Settles O7: the draws taken are the eight of the word fed. -/
theorem fedWordIsReturned : Obligations.FedWordIsReturned := by
  intro v rest s
  obtain ⟨t, ht, d⟩ := exec_accepted .sendZeroReceiveByte { s with miso := feed v ++ rest } rfl
  refine ⟨t, ht, ?_, ?_⟩
  · rw [d.result]
    exact congrArg some (drawnWord_feed v rest s)
  · rw [d.miso]
    exact List.drop_left' (by simp [feed, Instr.received])

/-- Settles O9: the edges of the two action lists from a high clock. -/
theorem brokenIdleEdges : Obligations.BrokenIdleEdges := by
  intro s hb hclock
  refine ⟨fun value => ?_, ?_⟩
  · obtain ⟨t, ht, d⟩ := exec_accepted (.sendByte value) s rfl
    refine ⟨t, _, ht, (d.eventLines hb).1, risingEdges_sendActions _ _, ?_, rfl⟩
    simp [fallingEdges_sendActions, hclock]
  · obtain ⟨t, ht, d⟩ := exec_accepted .sendZeroReceiveByte s rfl
    refine ⟨t, _, ht, (d.eventLines hb).1, ?_, fallingEdges_receiveActions _ _, samplesIn_receiveActions _⟩
    simp [risingEdges_receiveActions, hclock]

/-- Counting over the action list of a sent word: eight frames and the tail. -/
theorem countP_sendActions {p : Action → Bool} {n : Nat} (v : Byte)
    (h : ∀ b, [Action.sck false, .mosi b, .sck true, .settle].countP p = n) :
    (sendActions v).countP p = 8 * n + [Action.sck false, .mosi false].countP p := by
  simp only [sendActions, List.countP_append, List.countP_flatMap, Function.comp_def, h, List.map_const', List.sum_replicate_nat,
    List.length_range]

/-- Counting over the action list of a received word: the head and eight frames. -/
theorem countP_receiveActions {p : Action → Bool} {n : Nat} (f : Nat → Level) (h : ∀ b, (inFrame b).countP p = n) :
    (receiveActions f).countP p = [Action.mosi false].countP p + 8 * n := by
  rw [receiveActions_frames, ← List.singleton_append, List.countP_append, List.countP_flatMap]
  simp only [Function.comp_def, h, List.map_const', List.sum_replicate_nat, List.length_map, List.length_range]

/-- A drive of data-out. -/
def isMosiDrive : Action → Bool
  | .mosi _ => true
  | .sck _ | .cs _ | .settle | .sample _ => false

/-- The drives of data-out are those to 0 and those to 1. -/
theorem count_mosi (t : List Action) : t.count (.mosi false) + t.count (.mosi true) = t.countP isMosiDrive := by
  induction t with
  | nil => rfl
  | cons a t ih =>
    rw [List.count_cons, List.count_cons, List.countP_cons, ← ih]
    cases a with
    | mosi b => cases b <;> simp [isMosiDrive] <;> omega
    | sck | cs | settle | sample => simp [isMosiDrive]

/-- Settles O10: the actions of each kind in the four action lists. -/
theorem primitiveActionCounts : Obligations.PrimitiveActionCounts := by
  intro s t hb
  refine ⟨fun h => ?_, fun h => ?_, fun value h => ?_, fun h => ?_⟩
  · obtain ⟨-, d⟩ := exec_cases h
    simp [(d.eventLines hb).1]
  · obtain ⟨-, d⟩ := exec_cases h
    simp [(d.eventLines hb).1]
  · obtain ⟨-, d⟩ := exec_cases h
    refine ⟨_, (d.eventLines hb).1, length_sendActions _, ?_, ?_, ?_, settlesIn_sendActions _, samplesIn_sendActions _⟩
    · exact countP_sendActions (n := 1) _ (by decide)
    · exact countP_sendActions (n := 1) _ (by decide)
    · rw [count_mosi]; exact countP_sendActions (n := 1) _ (by decide)
  · obtain ⟨-, d⟩ := exec_cases h
    refine ⟨_, (d.eventLines hb).1, length_receiveActions _, ?_, ?_, ?_, ?_, settlesIn_receiveActions _, samplesIn_receiveActions _⟩
    · exact countP_receiveActions (n := 1) _ (by decide)
    · exact countP_receiveActions (n := 1) _ (by decide)
    · exact countP_receiveActions (n := 0) _ (by decide)
    · exact countP_receiveActions (n := 0) _ (by decide)

/-! ### Sequences of primitive calls (40_bus_primitives.md R122) -/

/-- No call does nothing. -/
theorem Ran.refl (s : State) : Ran s s [] 0 s.mem := by constructor <;> simp

/-- A primitive that completes makes one primitive call. -/
theorem words_length_of_primitive {i : Instr} (s : State) (hp : i.isFramer = false) (ha : i.accepted = true) :
    (i.words s).length = 1 := by
  cases i <;> simp_all [Instr.isFramer, Instr.accepted, Instr.isReserved, Instr.words]

/-- A host that issues primitives makes one primitive call each. -/
theorem runOps_primitives {ops : List Instr} {s t : State} (hp : ∀ i ∈ ops, i.isFramer = false) (h : runOps ops s = .next t) :
    ∃ W n m, Ran s t W n m ∧ W.length = ops.length := by
  induction ops generalizing s with
  | nil => cases h; exact ⟨[], 0, t.mem, Ran.refl t, rfl⟩
  | cons i rest ih =>
    rw [runOps] at h
    split at h
    · next u hu =>
      obtain ⟨ha, d⟩ := exec_cases hu
      obtain ⟨W, n, m, hran, hlen⟩ := ih (fun j hj => hp j (List.mem_cons_of_mem i hj)) h
      refine ⟨_, _, _, d.toRan.trans hran, ?_⟩
      simp [words_length_of_primitive s (hp i List.mem_cons_self) ha, hlen, Nat.add_comm]
    · cases h
    · cases h

/-- The last call of a sequence leaves its mark on the latches, whatever they were. -/
theorem replay_traceOf_getLast {W : List Event} {e : Event} (l : Latches) (h : W.getLast? = some e) :
    ∃ l', replay l (traceOf W) = replay l' e.actions := by
  obtain ⟨init, rfl⟩ := List.getLast?_eq_some_iff.mp h
  exact ⟨replay l (traceOf init), by simp⟩

/-- Settles O8: the run is a sequence of primitive calls, the last of which leaves the lines as it does from any latches. -/
theorem primitiveRunsKeepClockLow : Obligations.PrimitiveRunsKeepClockLow := by
  intro ops s t hp hb h
  obtain ⟨W, n, m, hran, hlen⟩ := runOps_primitives hp h
  obtain ⟨hlt, hlatches⟩ := hran.lines hb
  refine ⟨traceOf W, W, hlt, hran.wt, hlen, fun e he => ?_, fun hclock => ⟨?_, risingEdges_traceOf W _ hclock⟩⟩
  · obtain ⟨l', hl'⟩ := replay_traceOf_getLast s.latches he
    rw [hlatches, hl']
    refine ⟨?_, ?_, ?_, ?_⟩
    · rintro v rfl; simp
    · rintro r rfl; simp
    · rintro rfl; rfl
    · rintro rfl; rfl
  · rw [hlatches]; exact replay_traceOf_sck W _ hclock

end Sys2Proof.Machine
end

section
/-! PROOFS. The registers of the bit and word loops (10_state.md section 3; 40_bus_primitives.md section 6). -/

namespace Sys2Proof.Machine

/-! ### The datapath (R123) -/

/-- Shifted left by one, bit 0 is clear and no carry leaves the byte when it is set. -/
theorem toNat_shiftLeft_or_one (a : Byte) : ((a <<< 1) ||| 1#8).toNat = (a <<< 1).toNat + 1 := by
  revert a; decide

/-- The write mask keeps the address modulo 64. -/
theorem toNat_and_writeAddrMask (reg : Byte) : (reg &&& Config.writeAddrMask).toNat = reg.toNat % 64 := by
  rw [BitVec.toNat_and]
  exact Nat.and_two_pow_sub_one_eq_mod reg.toNat 6

/-- An OR is the sum less what the two have in common. -/
theorem or_add_and (a b : Nat) : (a ||| b) + (a &&& b) = a + b := by
  induction a using Nat.strongRecOn generalizing b with
  | ind a ih =>
    rcases Nat.eq_zero_or_pos a with rfl | ha
    · simp
    · have h := ih (a / 2) (by omega) (b / 2)
      rw [← Nat.or_div_two, ← Nat.and_div_two] at h
      have hor : (a ||| b) % 2 = 1 ↔ a % 2 = 1 ∨ b % 2 = 1 := Nat.or_mod_two_eq_one
      have hand : (a &&& b) % 2 = 1 ↔ a % 2 = 1 ∧ b % 2 = 1 := Nat.and_mod_two_eq_one
      omega

/-- Settles O11: the four laws. -/
theorem datapathIntegerLaws : Obligations.DatapathIntegerLaws := by
  refine ⟨fun v i => ?_, fun a => ⟨by simp, toNat_shiftLeft_or_one a⟩, toNat_and_writeAddrMask, fun p reg => ?_⟩
  · simpa using bitAt_eq v i.toNat i.isLt
  · have h := or_add_and (reg &&& Config.writeAddrMask).toNat p.wRegisterBit.toNat
    rw [cmdWreg, BitVec.toNat_eq, BitVec.toNat_or, BitVec.toNat_and _ p.wRegisterBit, BitVec.toNat_ofNat]
    omega

/-! ### One bit (R31, R32, R34) -/

/-- Settles O13: the registers and latches after the frame of one bit. -/
theorem bitLoopRegisters : Obligations.BitLoopRegisters := by
  intro s k hk
  refine ⟨fun v hv => ?_, by simp [receiveBit_eq], by simp [receiveBit_eq], by simp [receiveBit_eq], fun a ha => ?_⟩
  · simp [sendBit_eq k hk, State.readTxv, hv]
  · simp [receiveBit_eq, State.readAcc, ha]

/-! ### The accumulator (R32) -/

/-- After one bit the next draw is the one that followed. -/
theorem drawAt_receiveBit (k n : Nat) (s : State) : (receiveBit k s).drawAt n = s.drawAt (1 + n) := by
  simp [receiveBit_eq]

/-- One bit shifts the accumulator and puts its sample in bit 0. -/
theorem readAcc_receiveBit (k : Nat) (s : State) :
    (receiveBit k s).readAcc = (s.readAcc <<< 1) ||| (if s.drawAt 0 then 1#8 else 0#8) := by
  simp [receiveBit_eq, State.readAcc]

/-- The state after the first `j` bits of an incoming word. -/
def afterBits (j : Nat) (s : State) : State := (List.range j).foldl (fun u k => receiveBit (7 - k) u) (s.setAcc 0#8)

theorem afterBits_succ (j : Nat) (s : State) : afterBits (j + 1) s = receiveBit (7 - j) (afterBits j s) := by
  simp [afterBits, List.range_succ]

/-- `j` bits take `j` draws. -/
theorem drawAt_afterBits (j n : Nat) (s : State) : (afterBits j s).drawAt n = s.drawAt (j + n) := by
  induction j generalizing n with
  | zero => simp [afterBits]
  | succ j ih => rw [afterBits_succ, drawAt_receiveBit, ih, Nat.add_assoc]

/-- The samples taken so far stand in the low bits, earliest highest. -/
theorem getLsbD_readAcc_afterBits (j i : Nat) (s : State) (hi : i < 8) :
    (afterBits j s).readAcc.getLsbD i = (decide (i < j) && s.drawAt (j - 1 - i)) := by
  induction j generalizing i with
  | zero => simp [afterBits, State.readAcc]
  | succ j ih =>
    have hlast : (afterBits j s).drawAt 0 = s.drawAt j := drawAt_afterBits j 0 s
    rw [afterBits_succ, readAcc_receiveBit, hlast, BitVec.getLsbD_or, BitVec.getLsbD_shiftLeft]
    cases i with
    | zero => cases h : s.drawAt j <;> simp [h]
    | succ i =>
      have hzero : (if s.drawAt j then 1#8 else 0#8).getLsbD (i + 1) = false := by
        cases s.drawAt j <;> simp [BitVec.getLsbD_one]
      have hidx : j - 1 - i = j - (i + 1) := by omega
      rw [hzero, Bool.or_false]
      simp [hi, ih i (by omega), hidx]

/-- Settles O12: the invariant of the incoming bit loop. -/
theorem accumulatorHoldsSamplesSoFar : Obligations.AccumulatorHoldsSamplesSoFar :=
  fun s j i _ hi => getLsbD_readAcc_afterBits j i s hi

/-! ### `SEQ` and `CNT` (R33, R34, D27) -/

/-- `SEQ` advances one place an action. -/
@[simp] theorem advance_busy (op : Instr) (n : Nat) : Seq.advance (.busy op n) = .busy op (n + 1) := rfl

variable {op : Instr} {done : Nat} {s : State}

theorem select_seq (hb : s.Bitbang) (hs : s.seq = .busy op done) : (select s).seq = .busy op (done + 1) := by
  simp [select, show s.params.busImpl = .bitbang from hb, hs]

theorem deselect_seq (hb : s.Bitbang) (hs : s.seq = .busy op done) : (deselect s).seq = .busy op (done + 1) := by
  simp [deselect, show s.params.busImpl = .bitbang from hb, hs]

theorem sendByte_seq (v : Byte) (hb : s.Bitbang) (hs : s.seq = .busy op done) :
    (sendByte v s).seq = .busy op (done + 34) := by
  simp [sendByte, show s.params.busImpl = .bitbang from hb, sendBitbang, sendBits, sendBit_eq, Config.wordBits, hs]

theorem receiveByte_seq (hb : s.Bitbang) (hs : s.seq = .busy op done) :
    (receiveByte s).2.seq = .busy op (done + 41) := by
  simp [receiveByte, show s.params.busImpl = .bitbang from hb, receiveBitbang, receiveBits, receiveBit_eq, Config.wordBits, hs]

/-- `TXV` and `IDX` do not outlive a word sent (R30). -/
theorem sendByte_registers (v : Byte) (hb : s.Bitbang) : (sendByte v s).txv = none ∧ (sendByte v s).idx = none := by
  simp [sendByte, show s.params.busImpl = .bitbang from hb, sendBitbang]

/-- `ACC` and `IDX` do not outlive a word received (R30). -/
theorem receiveByte_registers (hb : s.Bitbang) : (receiveByte s).2.acc = none ∧ (receiveByte s).2.idx = none := by
  simp [receiveByte, show s.params.busImpl = .bitbang from hb, receiveBitbang]

theorem sendWords_seq (b : BufRef) (i n : Nat) (hb : s.Bitbang) (hs : s.seq = .busy op done) :
    (sendWords b i n s).seq = .busy op (done + 34 * n) := by
  induction n generalizing i s done with
  | zero => simpa [sendWords]
  | succ n ih =>
    rw [sendWords_succ, ih _ (bitbang_congr hb (by simp)) (sendByte_seq _ (bitbang_congr hb (by simp)) (by simpa using hs))]
    congr 1; omega

theorem receiveWords_seq (b : BufRef) (i n : Nat) (hb : s.Bitbang) (hs : s.seq = .busy op done) :
    (receiveWords b i n s).seq = .busy op (done + 41 * n) := by
  induction n generalizing i s done with
  | zero => simpa [receiveWords]
  | succ n ih =>
    rw [receiveWords_succ, ih _ (bitbang_congr hb (by simp))
      (by simpa using receiveByte_seq (s := s.setCnt i) (bitbang_congr hb (by simp)) (by simpa using hs))]
    congr 1; omega

/-- `CNT` is left at the index of the last word sent (log entry 13). -/
theorem sendWords_cnt (b : BufRef) (i n : Nat) (s : State) : (sendWords b i (n + 1) s).cnt = some (i + n) := by
  induction n generalizing i s with
  | zero => simp [sendWords]
  | succ n ih => rw [sendWords_succ, ih]; congr 1; omega

/-- `CNT` is left at the index of the last word received (log entry 13). -/
theorem receiveWords_cnt (b : BufRef) (i n : Nat) (s : State) : (receiveWords b i (n + 1) s).cnt = some (i + n) := by
  induction n generalizing i s with
  | zero => simp [receiveWords]
  | succ n ih => rw [receiveWords_succ, ih]; congr 1; omega

end Sys2Proof.Machine

namespace Sys2Proof.Machine

/-- Settles O14: the counts of the primitives, and of the word loops by induction on the words moved. -/
theorem sequencerCountsActions : Obligations.SequencerCountsActions := by
  intro op done v b n s hb hs
  obtain ⟨htxv, hidx⟩ := sendByte_registers v hb
  obtain ⟨hacc, hidx'⟩ := receiveByte_registers hb
  exact ⟨select_seq hb hs, deselect_seq hb hs, sendByte_seq v hb hs, htxv, hidx, receiveByte_seq hb hs, hacc, hidx',
    sendWords_seq b 0 _ hb hs, by simpa using sendWords_cnt b 0 n s, receiveWords_seq b 0 _ hb hs,
    by simpa using receiveWords_cnt b 0 n s⟩

end Sys2Proof.Machine
end

section
/-! PROOFS. The sessions of the framers (41_register_access.md, 42_payload_and_address.md section 1 to section 4). -/

namespace Sys2Proof.Machine

/-! ### The lines of one session -/

/-- The words of a session with a first word `c`, the words `vs` sent after it and the words `rs` received after those (30_encoding.md
R88). -/
def sessionWords (c : Byte) (vs rs : List Byte) : List Event :=
  [Event.sel, Event.tx c] ++ vs.map Event.tx ++ rs.map Event.rx ++ [Event.desel]

/-- The actions of a session are the select, those of its words, and the deselect. -/
theorem traceOf_sessionWords (c : Byte) (vs rs : List Byte) :
    traceOf (sessionWords c vs rs) =
      .cs .active :: (traceOf ((c :: vs).map .tx) ++ (traceOf (rs.map .rx) ++ [.cs .inactive])) := by
  simp [sessionWords]

/-- Words sent leave the clock, data-out and chip-select so. -/
theorem replay_sent (c : Byte) (vs : List Byte) (l : Latches) :
    replay l (traceOf ((c :: vs).map .tx)) = ⟨false, false, l.cs⟩ := by
  simpa using replay_words ((c :: vs).map .tx) (by simp) l

/-- Words received from low lines leave them as they are. -/
theorem replay_received (rs : List Byte) (cs : CsState) :
    replay ⟨false, false, cs⟩ (traceOf (rs.map .rx)) = ⟨false, false, cs⟩ := by
  rw [replay_words _ (by simp)]; simp

/-- The counts of a session that has a first word, and the lines it leaves (R170, R172). -/
theorem Did.sessionLines {s t : State} {c : Byte} {vs rs : List Byte} {r : Option Byte} {n : Nat} {m : Memory}
    (d : Did s t (sessionWords c vs rs) r n m) (hb : s.Bitbang) {actions edges samples settles : Nat}
    (hactions : 36 + 34 * vs.length + 41 * rs.length = actions) (hedges : 8 + 8 * vs.length + 8 * rs.length = edges)
    (hsamples : 8 * rs.length = samples) (hsettles : 8 + 8 * vs.length + 16 * rs.length = settles) :
    SessionLines s t (sessionWords c vs rs) actions edges samples settles := by
  obtain ⟨hlt, hlatches⟩ := d.lines hb
  obtain ⟨sentLen, sentEdges, sentSamples, sentSettles, sentCs⟩ := sent_counts (c :: vs) { s.latches with cs := .active }
  obtain ⟨recvLen, recvEdges, recvSamples, recvSettles, recvCs⟩ := received_counts rs ⟨false, false, .active⟩ rfl
  rw [List.length_cons] at sentLen sentEdges sentSettles
  refine ⟨_, hlt, rfl, ?_, ?_, ?_, ?_, fun hcs => ?_, ?_⟩
  · rw [traceOf_sessionWords, List.length_cons, List.length_append, List.length_append, sentLen, recvLen, List.length_singleton]
    omega
  · rw [traceOf_sessionWords, risingEdges_cs, risingEdges_append, replay_sent, risingEdges_append, sentEdges, recvEdges,
      risingEdges_cs, risingEdges_nil]
    omega
  · rw [traceOf_sessionWords, samplesIn_cs, samplesIn_append, samplesIn_append, sentSamples, recvSamples, samplesIn_cs, samplesIn_nil]
    omega
  · rw [traceOf_sessionWords, settlesIn_cs, settlesIn_append, settlesIn_append, sentSettles, recvSettles, settlesIn_cs, settlesIn_nil]
    omega
  · rw [traceOf_sessionWords, csTransitions_cs, csTransitions_append, replay_sent, csTransitions_append, sentCs, recvCs,
      replay_received, csTransitions_cs, csTransitions_nil, hcs]
    rfl
  · rw [hlatches, traceOf_sessionWords, replay_cons, replay_append, replay_append, replay_sent, replay_received]
    rfl

/-- Two operations that make the same primitive calls from one state leave the same traces, on either bus. -/
theorem Did.same_traces {s t u : State} {w : List Event} {r r' : Option Byte} {n n' : Nat} {m m' : Memory}
    (d : Did s t w r n m) (e : Did s u w r' n' m') : t.wt = u.wt ∧ t.lt = u.lt := by
  refine ⟨by rw [d.wt, e.wt], ?_⟩
  by_cases hb : s.Bitbang
  · rw [(d.lines hb).1, (e.lines hb).1]
  · rw [d.noLines hb, e.noLines hb]

/-- And on the bit-bang bus the same latches. -/
theorem Did.same_latches {s t u : State} {w : List Event} {r r' : Option Byte} {n n' : Nat} {m m' : Memory}
    (d : Did s t w r n m) (e : Did s u w r' n' m') (hb : s.Bitbang) : t.latches = u.latches := by
  rw [(d.lines hb).2, (e.lines hb).2]

/-- Operations with the same primitive calls leave the same traces. -/
theorem exec_same_traces {i j : Instr} {s t u : State} (hw : i.words s = j.words s) (hi : exec i s = .next t)
    (hj : exec j s = .next u) : t.wt = u.wt ∧ t.lt = u.lt := by
  obtain ⟨-, d⟩ := exec_cases hi
  obtain ⟨-, e⟩ := exec_cases hj
  rw [hw] at d
  exact d.same_traces e

/-! ### Register access -/

/-- What a register write does: its Command Byte and its data word in one session. -/
theorem Did.write {s t : State} {cmd value : Byte} (d : Did s t [Event.sel, .tx cmd, .tx value, .desel] none 0 s.mem) :
    t.wt = s.wt ++ [Event.sel, .tx cmd, .tx value, .desel] ∧ t.result = none ∧ SameHost s t ∧ NoSample s t ∧ t.Quiescent ∧
      (s.Bitbang → SessionLines s t [Event.sel, .tx cmd, .tx value, .desel] 70 16 0 16) :=
  ⟨d.wt, d.result, d.sameHost, d.noSample, d.quiescent, fun hb => Did.sessionLines (vs := [value]) (rs := []) d hb rfl rfl rfl rfl⟩

/-- What a register read does: its Command Byte and one word received in one session. -/
theorem Did.read {s t : State} {cmd : Byte}
    (d : Did s t [Event.sel, .tx cmd, .rx (s.drawnWord 0), .desel] (some (s.drawnWord 0)) 1 s.mem) :
    t.wt = s.wt ++ [Event.sel, .tx cmd, .rx (s.drawnWord 0), .desel] ∧ t.result = some (s.drawnWord 0) ∧ SameHost s t ∧
      t.miso = s.miso.drop 8 ∧ t.draws = s.draws + 8 ∧ t.Quiescent ∧
      (s.Bitbang → SessionLines s t [Event.sel, .tx cmd, .rx (s.drawnWord 0), .desel] 77 16 8 24) :=
  ⟨d.wt, d.result, d.sameHost, d.miso, d.draws, d.quiescent,
    fun hb => Did.sessionLines (vs := []) (rs := [s.drawnWord 0]) d hb rfl rfl rfl rfl⟩

/-- What a command does: its opcode in one session. -/
theorem Did.command {s t : State} {opcode : Byte} (d : Did s t [Event.sel, .tx opcode, .desel] none 0 s.mem) :
    t.wt = s.wt ++ [Event.sel, .tx opcode, .desel] ∧ t.result = none ∧ SameHost s t ∧ NoSample s t ∧ t.Quiescent ∧
      (s.Bitbang → SessionLines s t [Event.sel, .tx opcode, .desel] 36 8 0 8) :=
  ⟨d.wt, d.result, d.sameHost, d.noSample, d.quiescent, fun hb => Did.sessionLines (vs := []) (rs := []) d hb rfl rfl rfl rfl⟩

/-- Settles O15: the session of a register write. -/
theorem writeRegisterTransaction : Obligations.WriteRegisterTransaction := by
  intro reg value s
  obtain ⟨t, ht, d⟩ := exec_accepted (.writeRegister reg value) s rfl
  exact ⟨t, ht, d.write⟩

/-- Settles O16: the session of a register read. -/
theorem readRegisterTransaction : Obligations.ReadRegisterTransaction := by
  intro reg s
  obtain ⟨t, ht, d⟩ := exec_accepted (.readRegister reg) s rfl
  obtain ⟨hwt, hresult, hrest⟩ := d.read
  exact ⟨t, s.drawnWord 0, ht, hresult, getLsbD_drawnWord_zero s, hwt, hrest⟩

/-- Settles O17: the session of a command. -/
theorem commandTransaction : Obligations.CommandTransaction := by
  intro opcode s
  obtain ⟨t, ht, d⟩ := exec_accepted (.command opcode) s rfl
  exact ⟨t, ht, d.command⟩

/-- Settles O35: the register rows are the sessions of a register write, a register read and a command. -/
theorem wireRegisterRowsComplete : Obligations.WireRegisterRowsComplete := by
  intro reg opcode value s
  refine ⟨?_, ?_, ?_⟩
  · obtain ⟨t, ht, d⟩ := exec_accepted (.wireWriteRegister reg value) s rfl
    obtain ⟨hwt, hresult, hhost, hsample, hquiet, hlines⟩ := d.write
    exact ⟨t, ht, hresult, hhost, hsample, hquiet, hwt, hlines⟩
  · obtain ⟨t, ht, d⟩ := exec_accepted (.wireReadRegister reg) s rfl
    obtain ⟨hwt, hresult, hhost, hmiso, hdraws, hquiet, hlines⟩ := d.read
    exact ⟨t, s.drawnWord 0, ht, hresult, getLsbD_drawnWord_zero s, hhost, hmiso, hdraws, hquiet, hwt, hlines⟩
  · obtain ⟨t, ht, d⟩ := exec_accepted (.wireCommand opcode) s rfl
    obtain ⟨hwt, hresult, hhost, hsample, hquiet, hlines⟩ := d.command
    exact ⟨t, ht, hresult, hhost, hsample, hquiet, hwt, hlines⟩

/-- Settles O18: a masked address forms the same Command Byte. -/
theorem maskingInvariant : Obligations.MaskingInvariant := by
  intro reg value s t u
  have hcut : ∀ v : Byte, cut v.toNat = v := fun v => by simp [cut]
  refine ⟨exec_same_traces ?_, exec_same_traces ?_⟩
  · have hcmd : cmdWreg s.params (reg &&& 0x3F#8) = cmdWreg s.params reg := cmdWreg_and_mask _ _
    simp only [Instr.words, hcut, hcmd]
  · simp only [Instr.words, hcut, cmdRreg_and_mask]

/-- A wide operand is cut to its low 8 bits (30_encoding.md R89). -/
theorem cut_mod (x : Nat) : cut (x % 256) = cut x := by
  simp [cut, BitVec.ofNat, Fin.ofNat]

/-- Settles O44: an operand is used cut, and the cut is its low 8 bits. -/
theorem wideOperandsAreCut : Obligations.WideOperandsAreCut := by
  intro x y s t u
  refine ⟨exec_same_traces ?_, exec_same_traces ?_, exec_same_traces ?_, exec_same_traces ?_⟩ <;> simp only [Instr.words, cut_mod]

/-! ### Payload, address and bulk -/

/-- The buffer's elements, as the host's bytes. -/
theorem sentWords_eq (s : State) (b : BufRef) (n : Nat) :
    sentWords s b n = ((List.range n).map fun k => s.mem.read (b.base + k)).map .tx := by
  simp [sentWords, State.bufRead, BufRef.addr]

theorem receivedWords_eq (s : State) (n : Nat) : receivedWords s n = ((List.range n).map s.drawnWord).map .rx := by
  simp [receivedWords]

/-- A session that sends a first word and `n` elements of a buffer. -/
theorem Did.send {s t : State} {c : Byte} {b : BufRef} {n : Nat}
    (d : Did s t ([Event.sel, Event.tx c] ++ sentWords s b n ++ [Event.desel]) none 0 s.mem) :
    t.wt = s.wt ++ ([Event.sel, Event.tx c] ++ sentWords s b n ++ [Event.desel]) ∧ t.result = none ∧ SameHost s t ∧ NoSample s t ∧
      t.Quiescent ∧ (s.Bitbang → SessionLines s t ([Event.sel, Event.tx c] ++ sentWords s b n ++ [Event.desel])
        (36 + 34 * n) (8 + 8 * n) 0 (8 + 8 * n)) := by
  refine ⟨d.wt, d.result, d.sameHost, d.noSample, d.quiescent, fun hb => ?_⟩
  have hw : [Event.sel, Event.tx c] ++ sentWords s b n ++ [Event.desel] =
      sessionWords c ((List.range n).map fun k => s.mem.read (b.base + k)) [] := by
    simp [sessionWords, sentWords_eq]
  rw [hw] at d ⊢
  exact d.sessionLines hb (by simp) (by simp) rfl (by simp)

/-- Settles O21: the session of a payload write. -/
theorem writePayloadSendsInOrder : Obligations.WritePayloadSendsInOrder := by
  intro b size s
  refine ⟨fun h => ?_, exec_short_buffer s rfl rfl, fun x y => by simp [decodeHreq]⟩
  obtain ⟨t, ht, d⟩ := exec_accepted (.writePayload b size) s (accepted_of_room rfl rfl h)
  exact ⟨t, ht, d.send⟩

/-- Settles O22: the session of a pipe-0 address write. -/
theorem writeAddressRx0SendsFive : Obligations.WriteAddressRx0SendsFive := by
  intro b s
  refine ⟨fun h => ?_, exec_short_buffer s rfl rfl, fun x y n => by simp [decodeHreq]⟩
  obtain ⟨t, ht, d⟩ := exec_accepted (.writeAddressRx0 b) s (accepted_of_room rfl rfl h)
  exact ⟨t, ht, d.send⟩

/-- Settles O23: the session of a transmit address write. -/
theorem writeAddressTxSendsFive : Obligations.WriteAddressTxSendsFive := by
  intro b s
  refine ⟨fun h => ?_, exec_short_buffer s rfl rfl, fun x y n => by simp [decodeHreq]⟩
  obtain ⟨t, ht, d⟩ := exec_accepted (.writeAddressTx b) s (accepted_of_room rfl rfl h)
  exact ⟨t, ht, d.send⟩

/-- A payload read's calls are a session that receives its words. -/
theorem words_readPayload (b : BufRef) (n : Nat) (s : State) :
    (Instr.readPayload b n).words s = sessionWords s.params.rRxPayloadOp [] ((List.range n).map s.drawnWord) := by
  simp [Instr.words, receivedWords_eq, sessionWords]

/-- A payload write's calls are a session that sends the buffer. -/
theorem words_writePayload (b : BufRef) (n : Nat) (s : State) :
    (Instr.writePayload b n).words s =
      sessionWords s.params.wTxPayloadOp ((List.range n).map fun k => s.mem.read (b.base + k)) [] := by
  simp [Instr.words, sentWords_eq, sessionWords]

/-- Settles O20: the session of a payload read, whose words stand in the buffer after it. -/
theorem readPayloadStoresInOrder : Obligations.ReadPayloadStoresInOrder := by
  intro b size s hcap hwf
  obtain ⟨t, ht, d⟩ := exec_accepted (.readPayload b size) s (accepted_of_room rfl rfl hcap)
  have hmem : t.mem = s.mem.storeWords b 0 ((List.range size).map s.drawnWord) := d.mem
  have hread : ∀ i, i < size → t.mem.read (b.addr i) = s.drawnWord i := fun i hi => by
    rw [hmem]; exact read_received_at s b size i hi hwf
  have hw : [Event.sel, Event.tx s.params.rRxPayloadOp] ++
      (List.range size).map (fun i => Event.rx (t.mem.read (b.addr i))) ++ [Event.desel] =
      sessionWords s.params.rRxPayloadOp [] ((List.range size).map s.drawnWord) := by
    have hmap : (List.range size).map (fun i => Event.rx (t.mem.read (b.addr i))) = receivedWords s size :=
      List.map_congr_left fun i hi => by rw [hread i (List.mem_range.mp hi)]
    rw [hmap, receivedWords_eq]; simp [sessionWords]
  rw [words_readPayload] at d
  refine ⟨t, ht, ?_⟩
  rw [hw]
  refine ⟨fun i hi k hk => ?_, fun a ha => ?_, d.wt, d.result, d.requests, d.params, d.miso, d.draws, d.quiescent,
    fun hb => d.sessionLines hb (by simp) (by simp) (by simp) (by simp)⟩
  · rw [hread i hi]; exact getLsbD_drawnWord s i k hk
  · rw [hmem]; exact read_received_other s b size a ha

/-- Settles O24: a session of the buffer's elements alone. -/
theorem bulkSendsBufferOnly : Obligations.BulkSendsBufferOnly := by
  intro b size s hcap
  obtain ⟨t, ht, d⟩ := exec_accepted (.writeRegistersBulk b size) s (accepted_of_room rfl rfl hcap)
  refine ⟨t, ht, d.wt, d.result, d.sameHost, d.noSample, d.quiescent, fun hb => ?_⟩
  obtain ⟨hlt, hlatches⟩ := d.lines hb
  obtain ⟨hlen, hedges, hsamples, hsettles, hcs⟩ :=
    sent_counts ((List.range size).map fun k => s.mem.read (b.base + k)) { s.latches with cs := .active }
  rw [← sentWords_eq] at hlen hedges hsamples hsettles hcs
  rw [List.length_map, List.length_range] at hlen hedges hsettles
  have htrace : traceOf ((Instr.writeRegistersBulk b size).words s) =
      .cs .active :: (traceOf (sentWords s b size) ++ [.cs .inactive]) := by
    simp [Instr.words]
  have hreplay := replay_words (sentWords s b size) (sentWords_mem s b size) { s.latches with cs := .active }
  refine ⟨_, hlt, rfl, ?_, ?_, ?_, ?_, fun hinactive => ?_, ?_⟩
  · rw [htrace, List.length_cons, List.length_append, hlen, List.length_singleton]; omega
  · rw [htrace, risingEdges_cs, risingEdges_append, hedges, risingEdges_cs, risingEdges_nil, Nat.add_zero]
  · rw [htrace, samplesIn_cs, samplesIn_append, hsamples, samplesIn_cs, samplesIn_nil]
  · rw [htrace, settlesIn_cs, settlesIn_append, hsettles, settlesIn_cs, settlesIn_nil, Nat.add_zero]
  · rw [htrace, csTransitions_cs, csTransitions_append, hcs, csTransitions_cs, csTransitions_nil, hreplay, hinactive]
    cases size <;> simp [sentWords]
  · rw [hlatches, htrace, replay_cons, apply_cs, replay_append, hreplay]
    cases size <;> simp [sentWords]

/-- Settles O25: the two words of the buffer are the Command Byte and the value. -/
theorem bulkOfTwoIsWriteRegister : Obligations.BulkOfTwoIsWriteRegister := by
  intro b reg value s t u _ hcmd hvalue ht hu
  obtain ⟨-, d⟩ := exec_cases ht
  obtain ⟨-, e⟩ := exec_cases hu
  have hw : (Instr.writeRegistersBulk b 2).words s = (Instr.writeRegister reg value).words s := by
    simp [Instr.words, sentWords_eq, List.range_succ, hcmd, hvalue]
  rw [hw] at d
  obtain ⟨hwt, hlt⟩ := d.same_traces e
  exact ⟨hwt, by rw [d.mem, e.mem]; rfl, fun hb => ⟨hlt, d.same_latches e hb⟩⟩

/-- Two rows accepted alike that make the same primitive calls, return alike and leave the same bytes complete alike. -/
theorem exec_same_transaction {i j : Instr} (s : State) (hi : i.accepted = true) (hj : j.accepted = true)
    (hw : i.words s = j.words s) (hr : i.returns s = j.returns s) (hn : i.received = j.received) (hm : i.memAfter s = j.memAfter s) :
    ∃ t u, exec i s = .next t ∧ exec j s = .next u ∧ t.wt = u.wt ∧ t.lt = u.lt ∧ t.result = u.result ∧ t.mem = u.mem ∧
      t.miso = u.miso ∧ t.draws = u.draws ∧ t.requests = u.requests ∧ t.params = u.params ∧ t.Quiescent ∧
      (s.Bitbang → t.latches = u.latches) := by
  obtain ⟨t, ht, d⟩ := exec_accepted i s hi
  obtain ⟨u, hu, e⟩ := exec_accepted j s hj
  rw [hw, hr, hn, hm] at d
  obtain ⟨hwt, hlt⟩ := d.same_traces e
  exact ⟨t, u, ht, hu, hwt, hlt, by rw [d.result, e.result], by rw [d.mem, e.mem], by rw [d.miso, e.miso], by rw [d.draws, e.draws],
    by rw [d.requests, e.requests], by rw [d.params, e.params], d.quiescent, d.same_latches e⟩

/-- Settles O36: each buffer row and its framer are one transaction. -/
theorem wireBufferRowsComplete : Obligations.WireBufferRowsComplete := by
  rintro b size s p (⟨hcap, hp⟩ | ⟨hcap, hp⟩)
  · simp only [List.mem_cons, List.not_mem_nil, or_false] at hp
    obtain rfl | rfl | rfl := hp <;>
      exact exec_same_transaction s (accepted_of_room rfl rfl hcap) (accepted_of_room rfl rfl hcap) rfl rfl rfl rfl
  · simp only [List.mem_cons, List.not_mem_nil, or_false] at hp
    obtain rfl | rfl := hp <;>
      exact exec_same_transaction s (accepted_of_room rfl rfl hcap) (accepted_of_room rfl rfl hcap) rfl rfl rfl rfl

end Sys2Proof.Machine
end

section
/-! PROOFS. Laws of all operations: session discipline, data independence, the expansion into primitives, and what an observer of the
lines reads (42_payload_and_address.md section 5; 30_encoding.md section 4, section 6). -/

namespace Sys2Proof.Machine

/-! ### Session discipline (R170) -/

/-- A primitive call that moves a word. -/
def Event.isWord : Event → Bool
  | .tx _ | .rx _ => true
  | .sel | .desel => false

theorem isWord_of_mem_sentWords {s : State} {b : BufRef} {n : Nat} {e : Event} (h : e ∈ sentWords s b n) : e.isWord = true := by
  obtain ⟨v, rfl⟩ | ⟨r, rfl⟩ := sentWords_mem s b n e h <;> rfl

theorem isWord_of_mem_receivedWords {s : State} {n : Nat} {e : Event} (h : e ∈ receivedWords s n) : e.isWord = true := by
  obtain ⟨v, rfl⟩ | ⟨r, rfl⟩ := receivedWords_mem s n e h <;> rfl

theorem isWord_cases {e : Event} (h : e.isWord = true) : (∃ v, e = .tx v) ∨ ∃ r, e = .rx r := by
  cases e with
  | tx v => exact .inl ⟨v, rfl⟩
  | rx r => exact .inr ⟨r, rfl⟩
  | sel | desel => cases h

/-- A framer's primitive calls are a select, words, and a deselect. -/
theorem words_of_framer {i : Instr} (s : State) (h : i.isFramer = true) :
    ∃ W, i.words s = [Event.sel] ++ W ++ [Event.desel] ∧ ∀ e ∈ W, e.isWord = true := by
  have hcons : ∀ (c : Byte) (W : List Event), (∀ e ∈ W, e.isWord = true) → ∀ e ∈ Event.tx c :: W, e.isWord = true := by
    intro c W hW e he
    obtain rfl | he := List.mem_cons.mp he
    · rfl
    · exact hW e he
  cases i with
  | select | deselect | sendByte | sendZeroReceiveByte | reservedC | reservedD | reservedE | reservedF => cases h
  | writeRegister reg value => exact ⟨[.tx _, .tx _], rfl, by simp [Event.isWord]⟩
  | readRegister reg => exact ⟨[.tx _, .rx _], rfl, by simp [Event.isWord]⟩
  | command opcode => exact ⟨[.tx _], rfl, by simp [Event.isWord]⟩
  | wireWriteRegister reg value => exact ⟨[.tx _, .tx _], rfl, by simp [Event.isWord]⟩
  | wireReadRegister reg => exact ⟨[.tx _, .rx _], rfl, by simp [Event.isWord]⟩
  | wireCommand opcode => exact ⟨[.tx _], rfl, by simp [Event.isWord]⟩
  | readPayload b n | wireReadPayload b n => exact ⟨_ :: receivedWords s n, rfl, hcons _ _ fun _ => isWord_of_mem_receivedWords⟩
  | writePayload b n | wireWritePayload b n => exact ⟨_ :: sentWords s b n, rfl, hcons _ _ fun _ => isWord_of_mem_sentWords⟩
  | writeAddressRx0 b | writeAddressTx b | wireWriteAddressRx0 b | wireWriteAddressTx b =>
    exact ⟨_ :: sentWords s b Config.addrLen, rfl, hcons _ _ fun _ => isWord_of_mem_sentWords⟩
  | writeRegistersBulk b n | wireWriteRegistersBulk b n => exact ⟨sentWords s b n, rfl, fun _ => isWord_of_mem_sentWords⟩

/-- Words do not touch chip-select. -/
theorem cs_notMem_traceOf {W : List Event} (h : ∀ e ∈ W, e.isWord = true) (c : CsState) : Action.cs c ∉ traceOf W := by
  intro hc
  obtain ⟨e, he, hce⟩ := List.mem_flatMap.mp hc
  obtain ⟨v, rfl⟩ | ⟨r, rfl⟩ := isWord_cases (h e he)
  · simp [sendActions] at hce
  · simp [receiveActions] at hce

/-- Words make no chip-select transition. -/
theorem csTransitions_traceOf {W : List Event} (h : ∀ e ∈ W, e.isWord = true) (l : Latches) : csTransitions l (traceOf W) = 0 := by
  induction W generalizing l with
  | nil => rfl
  | cons e W ih =>
    have ih' := ih fun x hx => h x (List.mem_cons_of_mem e hx)
    rw [traceOf_cons, csTransitions_append, ih', Nat.add_zero]
    obtain ⟨v, rfl⟩ | ⟨r, rfl⟩ := isWord_cases (h e List.mem_cons_self)
    · exact csTransitions_sendActions l v
    · exact csTransitions_receiveActions l _

/-- Words leave chip-select as it is. -/
theorem replay_words_cs {W : List Event} (h : ∀ e ∈ W, e.isWord = true) (l : Latches) : (replay l (traceOf W)).cs = l.cs := by
  rw [replay_words W fun e he => isWord_cases (h e he)]
  split <;> rfl

/-- Settles O29: a framer's calls are a select, words and a deselect, and so are its actions. -/
theorem sessionDiscipline : Obligations.SessionDiscipline := by
  intro i s t hf h
  obtain ⟨-, d⟩ := exec_cases h
  obtain ⟨W, hw, hW⟩ := words_of_framer s hf
  rw [hw] at d
  refine ⟨W, d.wt, fun e he => ?_, fun hb => ?_⟩
  · obtain ⟨v, rfl⟩ | ⟨r, rfl⟩ := isWord_cases (hW e he) <;> simp
  · obtain ⟨hlt, hlatches⟩ := d.lines hb
    simp only [traceOf_append, traceOf_cons, traceOf_nil, actions_sel, actions_desel, List.append_nil] at hlt hlatches
    refine ⟨by simp [hlatches], traceOf W, hlt, cs_notMem_traceOf hW, fun hcs => ?_⟩
    rw [csTransitions_append, csTransitions_append, csTransitions_traceOf hW, replay_append, csTransitions_cs, csTransitions_cs,
      replay_words_cs hW, hcs]
    rfl

/-- Settles O34: the deselect comes last, and the clock is low after every call. -/
theorem framersKeepIdle : Obligations.FramersKeepIdle := by
  rintro i s t hf hb ⟨-, hclock⟩ h
  obtain ⟨W, -, -, hlines⟩ := sessionDiscipline i s t hf h
  obtain ⟨-, d⟩ := exec_cases h
  refine ⟨(hlines hb).1, ?_⟩
  rw [(d.lines hb).2]
  exact replay_traceOf_sck _ _ hclock

/-! ### No data-dependent branch (R171, R33) -/

/-- A word's action list has one shape, whatever the word. -/
theorem sendActions_shape (v w : Byte) : (sendActions v).map Action.shape = (sendActions w).map Action.shape := by
  simp [sendActions, List.map_flatMap, Action.shape]

theorem receiveActions_shape (f g : Nat → Level) :
    (receiveActions f).map Action.shape = (receiveActions g).map Action.shape := by
  simp [receiveActions, List.map_flatMap, Action.shape]

/-- Erasing a call's data does not change the shape of its actions. -/
theorem actions_shape (e : Event) : e.shape.actions.map Action.shape = e.actions.map Action.shape := by
  cases e with
  | sel | desel => rfl
  | tx v => exact sendActions_shape _ _
  | rx r => exact receiveActions_shape _ _

/-- The shape of an action list depends on the shapes of the calls alone. -/
theorem traceOf_shape (W : List Event) : (traceOf (W.map Event.shape)).map Action.shape = (traceOf W).map Action.shape := by
  simp only [traceOf, List.flatMap_map, List.map_flatMap, actions_shape]

theorem sentWords_shape (s : State) (b : BufRef) (n : Nat) : (sentWords s b n).map Event.shape = List.replicate n (.tx 0#8) := by
  simp [sentWords, Function.comp_def, Event.shape]

theorem receivedWords_shape (s : State) (n : Nat) : (receivedWords s n).map Event.shape = List.replicate n (.rx 0#8) := by
  simp [receivedWords, Function.comp_def, Event.shape]

/-- The calls of an operation, but for their data, depend on its form alone. -/
theorem words_shape (i : Instr) (s u : State) : (i.words s).map Event.shape = (i.form.words u).map Event.shape := by
  cases i <;> simp [Instr.words, Instr.form, Event.shape, sentWords_shape, receivedWords_shape]

/-- Settles O30: two operations of one form make calls of one shape, and those have actions of one shape. -/
theorem controlFlowIgnoresData : Obligations.ControlFlowIgnoresData := by
  intro i j s t u v hform hi hj
  obtain ⟨-, d⟩ := exec_cases hi
  obtain ⟨-, e⟩ := exec_cases hj
  have hshape : (i.words s).map Event.shape = (j.words u).map Event.shape := by
    rw [words_shape i s u, words_shape j u u, hform]
  refine ⟨_, _, d.wt, e.wt, hshape, fun hs hu => ⟨_, _, (d.lines hs).1, (e.lines hu).1, ?_⟩⟩
  rw [← traceOf_shape (i.words s), hshape, traceOf_shape]

/-! ### The expansion into primitives (R101) -/

/-- The host that issues `ops` from `s` is never refused, makes the primitive calls `w`, uses `n` words of draws and leaves its own
bytes. -/
def Runs (ops : List Instr) (s : State) (w : List Event) (n : Nat) : Prop :=
  ∃ u, runOps ops s = .next u ∧ Ran s u w n s.mem

theorem runOps_append {xs ys : List Instr} {s u : State} (h : runOps xs s = .next u) : runOps (xs ++ ys) s = runOps ys u := by
  induction xs generalizing s with
  | nil => cases h; rfl
  | cons i xs ih =>
    rw [runOps] at h
    rw [List.cons_append, runOps]
    split at h
    · exact ih h
    · cases h
    · cases h

/-- One run after another, the second from any state the first can end in. -/
theorem Runs.append {xs ys : List Instr} {s : State} {w x : List Event} {n k : Nat} (h : Runs xs s w n)
    (g : ∀ u, Ran s u w n s.mem → Runs ys u x k) : Runs (xs ++ ys) s (w ++ x) (n + k) := by
  obtain ⟨u, hu, hran⟩ := h
  obtain ⟨t, ht, hran'⟩ := g u hran
  rw [hran.mem] at hran'
  exact ⟨t, by rw [runOps_append hu, ht], hran.trans hran'⟩

theorem Runs.nil (s : State) : Runs [] s [] 0 := ⟨s, rfl, Ran.refl s⟩

/-- A primitive is its own run. -/
theorem Runs.single {i : Instr} (s : State) (ha : i.accepted = true) (hs : i.stores = none) : Runs [i] s (i.words s) i.received := by
  obtain ⟨t, ht, d⟩ := exec_accepted i s ha
  rw [memAfter_of_stores_none s hs] at d
  exact ⟨t, by rw [runOps, ht]; rfl, d.toRan⟩

/-- A byte sent by the host is the word sent. -/
theorem Runs.sendByte (s : State) (v : Byte) : Runs [.sendByte v.toNat] s [.tx v] 0 := by
  have hcut : cut v.toNat = v := by simp [cut]
  simpa [Instr.words, Instr.received, hcut] using Runs.single (i := .sendByte v.toNat) s rfl rfl

/-- The host that sends each of some bytes sends these words. -/
theorem Runs.sendBytes (vs : List Byte) (s : State) : Runs (vs.map fun v => .sendByte v.toNat) s (vs.map .tx) 0 := by
  induction vs generalizing s with
  | nil => exact Runs.nil s
  | cons v vs ih => exact (Runs.sendByte s v).append fun u _ => ih u

/-- The elements a framer sends are the ones the host sends in its stead. -/
theorem Runs.sendCalls (s u : State) (b : BufRef) (n : Nat) : Runs (sendCalls s b n) u (sentWords s b n) 0 := by
  simpa [Sys2Proof.sendCalls, sentWords, Function.comp_def] using Runs.sendBytes ((List.range n).map fun k => s.bufRead b k) u

/-- The host that receives `n` words receives the next `n`. -/
theorem Runs.receives (n : Nat) (s : State) : Runs (List.replicate n .sendZeroReceiveByte) s (receivedWords s n) n := by
  induction n with
  | zero => exact Runs.nil s
  | succ n ih =>
    rw [List.replicate_succ']
    have hwords : receivedWords s (n + 1) = receivedWords s n ++ [.rx (s.drawnWord n)] := by simp [receivedWords, List.range_succ]
    rw [hwords]
    refine ih.append fun u hran => ?_
    have hdrawn : u.drawnWord 0 = s.drawnWord n := by
      simp [State.drawnWord, hran.drawAt, Config.wordBits]
    simpa [Instr.words, Instr.received, hdrawn] using Runs.single (i := .sendZeroReceiveByte) u rfl rfl

/-- A run between a select and a deselect. -/
theorem Runs.session {ops : List Instr} {s : State} {w : List Event} {n : Nat}
    (h : ∀ u, Ran s u [.sel] 0 s.mem → Runs ops u w n) :
    Runs ([Instr.select] ++ ops ++ [Instr.deselect]) s ([Event.sel] ++ w ++ [Event.desel]) n := by
  have hopen : Runs ([Instr.select] ++ ops) s ([Event.sel] ++ w) (0 + n) := (Runs.single (i := .select) s rfl rfl).append h
  simpa [Instr.received] using hopen.append fun u _ => Runs.single (i := .deselect) u rfl rfl

/-- A session whose first word is sent. -/
theorem Runs.commandSession {ops : List Instr} {s : State} {c : Byte} {w : List Event} {n : Nat}
    (h : ∀ u, Ran s u [.sel, .tx c] 0 s.mem → Runs ops u w n) :
    Runs ([Instr.select, Instr.sendByte c.toNat] ++ ops ++ [Instr.deselect]) s ([Event.sel, Event.tx c] ++ w ++ [Event.desel]) n := by
  have hbody : ∀ u, Ran s u [.sel] 0 s.mem → Runs ([Instr.sendByte c.toNat] ++ ops) u ([Event.tx c] ++ w) (0 + n) := fun u hu =>
    (Runs.sendByte u c).append fun v hv => h v (by have := hu.trans hv; rwa [hu.mem] at this)
  simpa using Runs.session hbody

/-- The words to come are the same once a session is open. -/
theorem Runs.receives_of_ran {s u : State} {w : List Event} (n : Nat) (h : Ran s u w 0 s.mem) :
    Runs (List.replicate n .sendZeroReceiveByte) u (receivedWords s n) n := by
  have hwords : receivedWords u n = receivedWords s n := by simp [receivedWords, h.drawnWord]
  rw [← hwords]
  exact Runs.receives n u

/-- A word sent at the host's own width is cut by the primitive (R89). -/
theorem Runs.sendCut (s : State) (v : Nat) : Runs [.sendByte v] s [.tx (cut v)] 0 :=
  Runs.single (i := .sendByte v) s rfl rfl

/-- A host that calls the primitives of an expansion makes the operation's primitive calls. -/
theorem expansion_runs (i : Instr) (s : State) : Runs (i.expansion s) s (i.words s) i.received := by
  cases i with
  | select => exact Runs.single s rfl rfl
  | deselect => exact Runs.single s rfl rfl
  | sendByte value => exact Runs.single s rfl rfl
  | sendZeroReceiveByte => exact Runs.single s rfl rfl
  | reservedC | reservedD | reservedE | reservedF => exact Runs.nil s
  | writeRegister reg value | wireWriteRegister reg value => exact Runs.commandSession fun u _ => Runs.sendCut u value
  | readRegister reg | wireReadRegister reg => exact Runs.commandSession fun u hu => Runs.receives_of_ran 1 hu
  | command opcode => exact Runs.session fun u _ => Runs.sendCut u opcode
  | wireCommand opcode => exact Runs.session fun u _ => Runs.sendByte u opcode
  | readPayload b n | wireReadPayload b n => exact Runs.commandSession fun u hu => Runs.receives_of_ran n hu
  | writePayload b n | wireWritePayload b n => exact Runs.commandSession fun u _ => Runs.sendCalls s u b n
  | writeAddressRx0 b | writeAddressTx b | wireWriteAddressRx0 b | wireWriteAddressTx b =>
    exact Runs.commandSession fun u _ => Runs.sendCalls s u b Config.addrLen
  | writeRegistersBulk b n | wireWriteRegistersBulk b n => exact Runs.session fun u _ => Runs.sendCalls s u b n

/-- Settles O31: operation and expansion make the same primitive calls and use the same draws. -/
theorem framersAreTheirExpansion : Obligations.FramersAreTheirExpansion := by
  intro i s t h
  obtain ⟨-, d⟩ := exec_cases h
  obtain ⟨u, hu, hran⟩ := expansion_runs i s
  refine ⟨u, hu, by rw [hran.wt, d.wt], by rw [hran.miso, d.miso], by rw [hran.draws, d.draws], fun hb => ⟨?_, ?_⟩⟩
  · rw [(hran.lines hb).1, (d.lines hb).1]
  · rw [(hran.lines hb).2, (d.lines hb).2]

/-! ### What an observer of the lines reads -/

/-- Settles O32: the lines are the actions of the primitive calls. -/
theorem linesDecodeToWords : Obligations.LinesDecodeToWords := by
  intro i s t h hb hclock
  obtain ⟨-, d⟩ := exec_cases h
  exact ⟨_, _, (d.lines hb).1, d.wt, mosiWords_traceOf _ _ hclock, misoWords_traceOf _, risingEdges_traceOf _ _ hclock,
    fallingEdges_traceOf _ _ hclock⟩

/-- Settles O33: the actions of any primitive calls keep the setup rules from a low clock. -/
theorem dataSetupOrdering : Obligations.DataSetupOrdering := by
  intro i s t h hb hclock
  obtain ⟨-, d⟩ := exec_cases h
  exact ⟨_, (d.lines hb).1, keepsDataSetup_traceOf _ _ hclock, keepsSampleSetup_traceOf _ _ hclock⟩

/-- The first word an operation sends is the Command Byte that encodes it, where there is one. -/
theorem outWords_of_wire_code {i : Instr} {w : Byte} (s : State) (h : (encode s.params i).code = .wire (some w)) :
    ∃ rest, (i.words s).filterMap Event.outWord = w :: rest := by
  cases i <;> simp only [encode, Request.plain, cmdRaw, Code.wire.injEq, Option.some.injEq, reduceCtorEq] at h
  all_goals
    subst h
    exact ⟨_, rfl⟩

/-- Settles O37: the observer reads the words sent, the first of which is the Command Byte. -/
theorem wireRowSendsItsOwnCode : Obligations.WireRowSendsItsOwnCode := by
  intro i s t w _ hcode h hb hclock
  obtain ⟨-, d⟩ := exec_cases h
  obtain ⟨rest, hrest⟩ := outWords_of_wire_code s hcode
  exact ⟨_, rest, (d.lines hb).1, by rw [mosiWords_traceOf _ _ hclock, hrest]⟩

/-! ### Settles (R114) -/

/-- A settle is no point of the waveform and changes no latch. -/
theorem waveform_erase_settles (l : Latches) (t : List Action) :
    waveform l (t.filter fun a => a ≠ .settle) = waveform l t := by
  induction t generalizing l with
  | nil => rfl
  | cons a t ih =>
    by_cases h : a = .settle
    · subst h; rw [List.filter_cons_of_neg (by simp)]; exact ih l
    · rw [List.filter_cons_of_pos (by simpa using h), waveform, waveform, ih]

theorem replay_erase_settles (l : Latches) (t : List Action) : replay l (t.filter fun a => a ≠ .settle) = replay l t := by
  induction t generalizing l with
  | nil => rfl
  | cons a t ih =>
    by_cases h : a = .settle
    · subst h; rw [List.filter_cons_of_neg (by simp)]; exact ih l
    · rw [List.filter_cons_of_pos (by simpa using h), replay_cons, replay_cons, ih]

/-- A settle is no sample. -/
theorem misoBits_erase_settles (t : List Action) : misoBits (t.filter fun a => a ≠ .settle) = misoBits t := by
  induction t with
  | nil => rfl
  | cons a t ih =>
    by_cases h : a = .settle
    · subst h; rw [List.filter_cons_of_neg (by simp)]; exact ih
    · rw [List.filter_cons_of_pos (by simpa using h), ← List.singleton_append, misoBits_append, ih, ← misoBits_append]; rfl

/-- Settles O60: of any segment at all. -/
theorem settlesCanBeErased : Obligations.SettlesCanBeErased := by
  intro i s t h hb
  obtain ⟨-, d⟩ := exec_cases h
  obtain ⟨hlt, hlatches⟩ := d.lines hb
  exact ⟨_, hlt, waveform_erase_settles _ _, by rw [replay_erase_settles, hlatches], misoBits_erase_settles _⟩

end Sys2Proof.Machine
end

section
/-! PROOFS. Round trips against the spec's test doubles (95_test_vectors.md part 2; 41_register_access.md R145;
42_payload_and_address.md R173). -/

namespace Sys2Proof.Machine

/-! ### A received word, bit frame by bit frame -/

/-- What a chip has taken after `k` bit frames of a received word: `k` zeros, and the whole word after the eighth. -/
def Taken.after (k : Nat) (ws : List Byte) : Taken := if k = 8 then ⟨0#8, 0, ws ++ [0#8]⟩ else ⟨0#8, k, ws⟩

theorem Taken.next_eq_after (k : Nat) (ws : List Byte) : Taken.next k ws = Taken.after (k + 1) ws := by
  simp [Taken.next, Taken.after]

theorem Taken.eq_after {k : Nat} (ws : List Byte) (hk : k < 8) : (⟨0#8, k, ws⟩ : Taken) = Taken.after k ws := by
  rw [Taken.after, if_neg (by omega)]

/-- A word is told by its bits on the wire. -/
theorem eq_of_wireBit {v w : Byte} (h : ∀ k < 8, wireBit v k = wireBit w k) : v = w := by
  rw [← wordOf8_wireBit v, ← wordOf8_wireBit w]
  simp [h]

/-- The lines while a session is open and no word is under way. -/
def openLines : Latches := ⟨false, false, .active⟩

section frames
/-! The chip goes from `e k` to `e (k + 1)` at bit frame `k`, whose sample agrees just where `g k` says. -/

variable {σ : Type} {c : Chip σ} {e : Nat → σ} {g : Nat → Level → Bool}
  (hframe : ∀ k < 8, ∀ b,
    c.agrees (e k) openLines (inFrame b) = g k b ∧ c.after (e k) openLines (inFrame b) = e (k + 1))
include hframe

/-- The first `n` frames take the chip from `e 0` to `e n`, and agree only where each does. -/
theorem Chip.frames (f : Nat → Level) (n : Nat) (hn : n ≤ 8) :
    (c.agrees (e 0) openLines (((List.range n).map f).flatMap inFrame) = true → ∀ k < n, g k (f k) = true) ∧
    c.after (e 0) openLines (((List.range n).map f).flatMap inFrame) = e n ∧
    replay openLines (((List.range n).map f).flatMap inFrame) = openLines := by
  induction n with
  | zero => exact ⟨fun _ k hk => by omega, rfl, rfl⟩
  | succ n ih =>
    obtain ⟨hagrees, hafter, hreplay⟩ := ih (by omega)
    obtain ⟨hlast, hnext⟩ := hframe n (by omega) (f n)
    simp only [List.range_succ, List.map_append, List.map_cons, List.map_nil, List.flatMap_append, List.flatMap_singleton,
      Chip.agrees_append, Chip.after_append, replay_append, hafter, hreplay, hlast, hnext, Bool.and_eq_true]
    refine ⟨fun ⟨hinit, hn'⟩ k hk => ?_, trivial, by simp [openLines]⟩
    obtain hk | rfl := Nat.lt_succ_iff_lt_or_eq.mp hk
    · exact hagrees hinit k hk
    · exact hn'

/-- A whole received word, whose head drives data-out low again. -/
theorem Chip.receive (hmosi : c.after (e 0) openLines [.mosi false] = e 0) (f : Nat → Level) :
    (c.agrees (e 0) openLines (receiveActions f) = true → ∀ k < 8, g k (f k) = true) ∧
    c.after (e 0) openLines (receiveActions f) = e 8 := by
  obtain ⟨hagrees, hafter, -⟩ := Chip.frames hframe f 8 le_rfl
  have hhead : openLines.apply (.mosi false) = openLines := rfl
  rw [receiveActions_frames, Chip.after_cons, Chip.agrees, hmosi, hhead, Bool.and_eq_true]
  exact ⟨fun h => hagrees h.2, hafter⟩

end frames

/-! ### The echo chip -/

/-- A word the echo chip answers is the register it was asked for. -/
theorem echo_receive {p : Params} {st : Byte → Byte} {c r : Byte} (hc : echoWrites p c = false)
    (h : (echo p).agrees ⟨st, ⟨0#8, 0, [c]⟩⟩ openLines (receiveActions (wireBit r)) = true) : r = st c := by
  have hframe : ∀ k < 8, ∀ b, (echo p).agrees ⟨st, Taken.after k [c]⟩ openLines (inFrame b) = (b == wireBit (st c) k) ∧
      (echo p).after ⟨st, Taken.after k [c]⟩ openLines (inFrame b) = ⟨st, Taken.after (k + 1) [c]⟩ := fun k hk b => by
    rw [← Taken.eq_after [c] hk, ← Taken.next_eq_after]
    exact echo_inFrame p st c k openLines b hk hc rfl rfl rfl
  rw [Taken.eq_after [c] (by decide)] at h
  obtain ⟨hword, -⟩ := Chip.receive (e := fun k => ⟨st, Taken.after k [c]⟩) hframe (echo_mosi _ _ _ _) (wireBit r)
  have hbits := hword h
  exact eq_of_wireBit fun k hk => by simpa using hbits k hk

/-- A write session files its second word under its first word's address. -/
theorem echo_write_session {p : Params} {c v : Byte} (e : Echo) {l : Latches} (hl : l.cs = .inactive) (hc : echoWrites p c = true) :
    ((echo p).after e l (traceOf (sessionWords c [v] []))).store (c &&& ~~~p.wRegisterBit) = v := by
  rw [traceOf_sessionWords, Chip.after_cons, echo_cs]
  simp [hl, Chip.after_append, echo_send, echo_cs, echoStore, hc]

/-- A read session returns what the chip's store holds under its first word. -/
theorem echo_read_session {p : Params} {c r : Byte} {e : Echo} {l : Latches} (hl : l.cs = .inactive) (hc : echoWrites p c = false)
    (h : (echo p).agrees e l (traceOf (sessionWords c [] [r])) = true) : r = e.store c := by
  rw [traceOf_sessionWords, Chip.agrees, echo_cs] at h
  simp only [hl, Chip.agrees_append, Bool.and_eq_true, List.map_cons, List.map_nil, traceOf_cons, traceOf_nil, List.append_nil,
    actions_tx, actions_rx, apply_cs, echo_send, echoStore, replay_sendActions, List.nil_append, and_true, if_true] at h
  obtain ⟨-, -, hword, -⟩ := h
  exact echo_receive hc hword

/-- An OR holds every bit of its second operand. -/
theorem or_and_self (a w : Byte) : (a ||| w) &&& w = w := by
  refine BitVec.eq_of_getLsbD_eq fun i _ => ?_
  rw [BitVec.getLsbD_and, BitVec.getLsbD_or]
  cases w.getLsbD i <;> simp

/-- Clearing the bits an OR set leaves the other operand's. -/
theorem or_and_not_self (a w : Byte) : (a ||| w) &&& ~~~w = a &&& ~~~w := by
  simp [BitVec.and_or_distrib_right]

/-- A register write's Command Byte puts the echo chip in write mode. -/
theorem echoWrites_cmdWreg (p : Params) (reg : Byte) : echoWrites p (cmdWreg p reg) = true := by
  simp [echoWrites, cmdWreg, or_and_self]

/-- Under `K1` a register below 64 is read under the address it is written under (30_encoding.md R90). -/
theorem cmdRreg_eq_filed {p : Params} (h1 : p.K1) {reg : Byte} (hreg : reg &&& Config.writeAddrMask = reg) :
    cmdRreg p reg = cmdWreg p reg &&& ~~~p.wRegisterBit := by
  calc cmdRreg p reg = reg &&& (p.readAddrMask &&& Config.writeAddrMask) := by
        rw [cmdRreg, BitVec.and_comm p.readAddrMask, ← BitVec.and_assoc, hreg]
    _ = (reg &&& Config.writeAddrMask) &&& ~~~p.wRegisterBit := by rw [h1, BitVec.and_assoc]
    _ = cmdWreg p reg &&& ~~~p.wRegisterBit := (or_and_not_self _ _).symm

/-- Under `K0` an address without `W_REGISTER_BIT` is no write. -/
theorem echoWrites_cleared {p : Params} (h0 : p.K0) (c : Byte) : echoWrites p (c &&& ~~~p.wRegisterBit) = false := by
  have h : c &&& ~~~p.wRegisterBit &&& p.wRegisterBit = 0#8 := by
    rw [BitVec.and_assoc, BitVec.and_comm (~~~p.wRegisterBit)]; simp
  simp [echoWrites, h, Ne.symm h0]

/-- An address below 64 is left alone by the write mask. -/
theorem cut_and_writeAddrMask {reg : Nat} (h : reg < 64) : cut reg &&& Config.writeAddrMask = cut reg := by
  have hcut : (cut reg).toNat = reg := by simp [cut]; omega
  rw [BitVec.toNat_eq, toNat_and_writeAddrMask, hcut]
  omega

/-- Settles O19: the write session files the value under the address that the read session asks for. -/
theorem writeThenReadAgainstEcho : Obligations.WriteThenReadAgainstEcho := by
  intro reg value e s t u hreg hb hidle h0 h1 ht hu
  obtain ⟨-, d⟩ := exec_cases ht
  obtain ⟨-, d'⟩ := exec_cases hu
  have hwrite : (Instr.writeRegister reg value).words s = sessionWords (cmdWreg s.params (cut reg)) [cut value] [] := rfl
  have hread : (Instr.readRegister reg).words t = sessionWords (cmdRreg s.params (cut reg)) [] [t.drawnWord 0] := by
    rw [← d.params]; rfl
  rw [hwrite] at d
  rw [hread] at d'
  have hidle' : t.Idle := framersKeepIdle _ s t rfl hb hidle ht
  obtain ⟨hlt, hlatches⟩ := d.lines hb
  obtain ⟨hlt', -⟩ := d'.lines (bitbang_congr hb d.params)
  refine ⟨_, _, hlt, hlt', mosiWords_traceOf _ _ hidle.2, mosiWords_traceOf _ _ hidle'.2, fun hagrees => ?_⟩
  rw [Chip.agrees_append, Bool.and_eq_true, ← hlatches] at hagrees
  have hfiled := cmdRreg_eq_filed h1 (cut_and_writeAddrMask hreg)
  have hmode : echoWrites s.params (cmdRreg s.params (cut reg)) = false := by rw [hfiled]; exact echoWrites_cleared h0 _
  have hstored := echo_write_session (v := cut value) e hidle.1 (echoWrites_cmdWreg s.params (cut reg))
  have hword := echo_read_session hidle'.1 hmode hagrees.2
  rw [← hfiled] at hstored
  rw [hstored] at hword
  rw [d'.result, ← hword]
  rfl

/-! ### The payload chip -/

/-- Words the payload chip answers are its payload's, word by word. -/
theorem pay_receives {p : Params} {pl : List Byte} (rs ws : List Byte)
    (h : (pay p).agrees ⟨pl, ⟨0#8, 0, p.rRxPayloadOp :: ws⟩⟩ openLines (traceOf (rs.map .rx)) = true)
    (i : Nat) (hi : i < rs.length) (w : Byte) (hw : pl[ws.length + i]? = some w) : rs[i] = w := by
  induction rs generalizing ws i with
  | nil => simp at hi
  | cons r rs ih =>
    have hframe : ∀ k < 8, ∀ b,
        (pay p).agrees ⟨pl, Taken.after k (p.rRxPayloadOp :: ws)⟩ openLines (inFrame b) =
          agreesAt ((pl[ws.length]?).map fun w => wireBit w k) (.sample b) ∧
        (pay p).after ⟨pl, Taken.after k (p.rRxPayloadOp :: ws)⟩ openLines (inFrame b) =
          ⟨pl, Taken.after (k + 1) (p.rRxPayloadOp :: ws)⟩ := fun k hk b => by
      rw [← Taken.eq_after _ hk, ← Taken.next_eq_after]
      exact pay_inFrame p pl ws k openLines b hk rfl rfl rfl
    obtain ⟨hword, hafter⟩ := Chip.receive (e := fun k => ⟨pl, Taken.after k (p.rRxPayloadOp :: ws)⟩)
      hframe (pay_mosi _ _ _ _) (wireBit r)
    have hlines : replay openLines (receiveActions (wireBit r)) = openLines := replay_receiveActions _ _
    rw [List.map_cons, traceOf_cons, Chip.agrees_append, Bool.and_eq_true, actions_rx, hlines] at h
    obtain ⟨hfirst, hrest⟩ := h
    cases i with
    | zero =>
      have hbits := hword hfirst
      rw [Nat.add_zero] at hw
      exact eq_of_wireBit fun k hk => by simpa [hw, agreesAt] using hbits k hk
    | succ i =>
      have hnext : (pay p).after ⟨pl, ⟨0#8, 0, p.rRxPayloadOp :: ws⟩⟩ openLines (receiveActions (wireBit r)) =
          ⟨pl, ⟨0#8, 0, p.rRxPayloadOp :: (ws ++ [0#8])⟩⟩ := hafter
      rw [hnext] at hrest
      have hidx : (ws ++ [0#8]).length + i = ws.length + (i + 1) := by simp; omega
      exact ih (ws ++ [0#8]) hrest i (by simpa using hi) (by rw [hidx]; exact hw)

/-- A read session returns the payload the chip holds. -/
theorem pay_read_session {p : Params} {e : Pay} {l : Latches} {rs : List Byte} (hl : l.cs = .inactive)
    (h : (pay p).agrees e l (traceOf (sessionWords p.rRxPayloadOp [] rs)) = true)
    (i : Nat) (hi : i < rs.length) (w : Byte) (hw : e.pl[i]? = some w) : rs[i] = w := by
  rw [traceOf_sessionWords, Chip.agrees, pay_select _ _ _ hl] at h
  simp only [Chip.agrees_append, Bool.and_eq_true, List.map_cons, List.map_nil, traceOf_cons, traceOf_nil, List.append_nil,
    actions_tx, apply_cs, pay_send, replay_sendActions, List.nil_append] at h
  obtain ⟨-, -, hwords, -⟩ := h
  exact pay_receives rs [] hwords i hi w (by simpa using hw)

/-- The payload chip takes the words sent, in order. -/
theorem pay_sends {p : Params} {pl : List Byte} (vs ws : List Byte) {l : Latches} (hl : l.cs = .active) :
    (pay p).after ⟨pl, ⟨0#8, 0, ws⟩⟩ l (traceOf (vs.map .tx)) = ⟨pl, ⟨0#8, 0, ws ++ vs⟩⟩ := by
  induction vs generalizing ws l with
  | nil => simp
  | cons v vs ih =>
    rw [List.map_cons, traceOf_cons, Chip.after_append, actions_tx, pay_send _ _ _ _ _ hl, replay_sendActions,
      ih (l := ⟨false, false, l.cs⟩) _ hl,
      List.append_assoc, List.singleton_append]

/-- A write session leaves the chip the words it sends. -/
theorem pay_write_session {p : Params} (e : Pay) {l : Latches} (vs : List Byte) (hl : l.cs = .inactive) :
    ((pay p).after e l (traceOf (sessionWords p.wTxPayloadOp vs []))).pl = vs := by
  rw [traceOf_sessionWords, Chip.after_cons, pay_select _ _ _ hl, Chip.after_append, pay_sends _ _ rfl, List.map_nil, traceOf_nil,
    List.nil_append, List.nil_append, pay_deselect _ _ _ _ _ (by rw [replay_sent]; rfl), if_pos rfl]

/-- Settles O28: the words the read session stores are the chip's payload, and the write session sends them back. -/
theorem payloadRoundTripAgainstPay : Obligations.PayloadRoundTripAgainstPay := by
  rintro b e s t u hb hidle hwf - ht hu
  obtain ⟨-, d⟩ := exec_cases ht
  obtain ⟨-, d'⟩ := exec_cases hu
  rw [words_readPayload] at d
  rw [words_writePayload, d.params] at d'
  have hidle' : t.Idle := framersKeepIdle _ s t rfl hb hidle ht
  obtain ⟨hlt, hlatches⟩ := d.lines hb
  obtain ⟨hlt', -⟩ := d'.lines (bitbang_congr hb d.params)
  refine ⟨_, by rw [hlt', hlt, List.append_assoc], fun hagrees => ?_⟩
  rw [Chip.agrees_append, Bool.and_eq_true] at hagrees
  rw [Chip.after_append, ← hlatches, pay_write_session _ _ hidle'.1]
  have hmem : t.mem = s.mem.storeWords b 0 ((List.range e.pl.length).map s.drawnWord) := d.mem
  have hread : ∀ i w, e.pl[i]? = some w → t.mem.read (b.addr i) = w := fun i w hw => by
    have hi : i < e.pl.length := (List.getElem?_eq_some_iff.mp hw).1
    rw [hmem, read_received_at s b _ i hi hwf]
    have hword := pay_read_session hidle.1 hagrees.1 i (by simpa using hi) w hw
    rwa [List.getElem_map, List.getElem_range] at hword
  refine ⟨hread, List.ext_getElem (by simp) fun i _ hi => ?_⟩
  rw [List.getElem_map, List.getElem_range]
  exact hread i _ (List.getElem?_eq_getElem hi)

end Sys2Proof.Machine
end
